-- ==== Sys2Proof/Word.lean ====
section
/-! DEFINITION. The word types of the Synacor-VM core (spec/00_scope.md R6, R8, R11). -/

namespace Sys2Proof

/-- A raw cell word: the 16-bit content of a memory cell, an instruction word, a stack entry or the
instruction pointer (R6 `CELL_BITS`, R11). -/
abbrev Word := BitVec 16

/-- A program value: the 15-bit quantity a register holds and an operand has (R6 `VALUE_BITS`, R11). -/
abbrev Value := BitVec 15

/-- A character of the input or output channel: 8 bits (R6 `CHAR_BITS`, R185). -/
abbrev Chr := BitVec 8

/-- A register slot, 0 to 7 (R6 `NREGS`, R11 "slot"). -/
abbrev RegIdx := Fin 8

end Sys2Proof
end

