-- ==== Sys2Proof/WellFormed.lean ====
section
/-! DEFINITION. The one check an instruction's syntax leaves open: a dest-reg position must hold a
register reference (spec/30_encoding.md R80, R85). An ill-formed instruction still decodes, and raises
InvalidWriteTarget when it runs (R204). -/

namespace Sys2Proof

/-- The operand names a register slot. -/
def Operand.isReg : Operand → Bool
  | .lit _ => false
  | .reg _ => true

/-- Operand a of a register-writing instruction is a register reference; the other instructions have
no dest-reg operand and are always well-formed (R80, R85). -/
def Instr.wf (i : Instr) : Bool :=
  match i.dest with
  | none => true
  | some a => a.isReg

end Sys2Proof
end

