-- ==== Sys2Proof/Decode.lean ====
section
/-! DEFINITION. The instruction decoder and the encoder (spec/30_encoding.md R80 to R91).
The decoder is total on any list of cell words: it answers the instruction and the words after it, or
the first stage 1 to 3 event of R87 that stops it, by name. -/

namespace Sys2Proof

/-- `zext_16` of a value (R9): the same number in 16 bits. -/
def zext16 (v : Value) : Word := v.setWidth 16

/-- `zext_15` of a character (R9, R181): the same number in 15 bits. -/
def zext15 (c : Chr) : Value := c.setWidth 15

/-- `w[14:0]` of a word (R8), which is `w mod 32768`. -/
def low15 (w : Word) : Value := w.setWidth 15

/-- `v[7:0]` of a value (R8), which is `v mod 256`. -/
def low8 (v : Value) : Chr := v.setWidth 8

/-- What ends stages 1 to 3 of a step (R87), in the priority order of R209 items 1 to 3. -/
inductive DecodeError where
  /-- Stage 1: there is no cell to fetch the opcode word from. -/
  | noOpcode
  /-- Stage 2: the opcode word `op` is none of 0 to 21 (R81). -/
  | invalidOpcode (op : Word)
  /-- Stage 3: the cell of operand number `k` (0 is a) does not exist. -/
  | operandMissing (op : Word) (k : Nat)
  /-- Stage 3: the operand word `w` is 32776 or more (R83). -/
  | invalidOperand (op : Word) (w : Word)
deriving DecidableEq, Repr

/-- `Decode(w)` of R83: 0 to 32767 is a literal, 32768 to 32775 a register reference, and anything else
is invalid (`none`). -/
def decodeOperand (w : Word) : Option Operand :=
  if w.toNat ≤ 32767 then some (.lit (low15 w))
  else if h : w.toNat - 32768 < 8 then some (.reg ⟨w.toNat - 32768, h⟩)
  else none

/-- The operand word of an operand: the literal itself, or 32768 + slot (R83, R92). -/
def Operand.encode : Operand → Word
  | .lit v => zext16 v
  | .reg r => BitVec.ofNat 16 (32768 + r.val)

/-- An opcode's instruction, as a function of its operands: how many it has is fixed by the opcode
alone (R80, R91). -/
inductive Shape where
  | zero (i : Instr)
  | one (f : Operand → Instr)
  | two (f : Operand → Operand → Instr)
  | three (f : Operand → Operand → Operand → Instr)

/-- The opcode table of R82; `none` is an unrecognised opcode word (R81). -/
def shapeOf (op : Word) : Option Shape :=
  match op.toNat with
  | 0 => some (.zero .halt)
  | 1 => some (.two .set)
  | 2 => some (.one .push)
  | 3 => some (.one .pop)
  | 4 => some (.three .eq)
  | 5 => some (.three .gt)
  | 6 => some (.one .jmp)
  | 7 => some (.two .jt)
  | 8 => some (.two .jf)
  | 9 => some (.three .add)
  | 10 => some (.three .mult)
  | 11 => some (.three .mod)
  | 12 => some (.three .and)
  | 13 => some (.three .or)
  | 14 => some (.two .not)
  | 15 => some (.two .rmem)
  | 16 => some (.two .wmem)
  | 17 => some (.one .call)
  | 18 => some (.zero .ret)
  | 19 => some (.one .out)
  | 20 => some (.one .inp)
  | 21 => some (.zero .noop)
  | _ => none

/-- How many operand words follow an opcode word (R82, `cells` - 1); `none` for an unrecognised one. -/
def arity (op : Word) : Option Nat :=
  match shapeOf op with
  | none => none
  | some (.zero _) => some 0
  | some (.one _) => some 1
  | some (.two _) => some 2
  | some (.three _) => some 3

/-- Stage 3 of R87 for operand number `k`: fetch one word, then classify it. -/
def takeOperand (op : Word) (k : Nat) : List Word → Except DecodeError (Operand × List Word)
  | [] => .error (.operandMissing op k)
  | w :: ws =>
    match decodeOperand w with
    | some o => .ok (o, ws)
    | none => .error (.invalidOperand op w)

/-- Stage 3 of R87 for the whole instruction: the operands strictly left to right, fetch then classify
each. -/
def decodeShape (op : Word) (ws : List Word) : Shape → Except DecodeError (Instr × List Word)
  | .zero i => .ok (i, ws)
  | .one f =>
    match takeOperand op 0 ws with
    | .error e => .error e
    | .ok (a, ws) => .ok (f a, ws)
  | .two f =>
    match takeOperand op 0 ws with
    | .error e => .error e
    | .ok (a, ws) =>
      match takeOperand op 1 ws with
      | .error e => .error e
      | .ok (b, ws) => .ok (f a b, ws)
  | .three f =>
    match takeOperand op 0 ws with
    | .error e => .error e
    | .ok (a, ws) =>
      match takeOperand op 1 ws with
      | .error e => .error e
      | .ok (b, ws) =>
        match takeOperand op 2 ws with
        | .error e => .error e
        | .ok (c, ws) => .ok (f a b c, ws)

/-- Stages 1 to 3 of R87 on the cell words from P onwards: the instruction and the words after it. -/
def decode : List Word → Except DecodeError (Instr × List Word)
  | [] => .error .noOpcode
  | op :: ws =>
    match shapeOf op with
    | none => .error (.invalidOpcode op)
    | some sh => decodeShape op ws sh

/-- The opcode word of an instruction (R82). -/
def Instr.opcode : Instr → Word
  | .halt => 0
  | .set _ _ => 1
  | .push _ => 2
  | .pop _ => 3
  | .eq _ _ _ => 4
  | .gt _ _ _ => 5
  | .jmp _ => 6
  | .jt _ _ => 7
  | .jf _ _ => 8
  | .add _ _ _ => 9
  | .mult _ _ _ => 10
  | .mod _ _ _ => 11
  | .and _ _ _ => 12
  | .or _ _ _ => 13
  | .not _ _ => 14
  | .rmem _ _ => 15
  | .wmem _ _ => 16
  | .call _ => 17
  | .ret => 18
  | .out _ => 19
  | .inp _ => 20
  | .noop => 21

/-- The words of an instruction in the order they stand in memory: the opcode word (R82), then operands
a, b, c as far as its format has them (R80). -/
def encode : Instr → List Word
  | .halt => [0]
  | .set a b => [1, a.encode, b.encode]
  | .push a => [2, a.encode]
  | .pop a => [3, a.encode]
  | .eq a b c => [4, a.encode, b.encode, c.encode]
  | .gt a b c => [5, a.encode, b.encode, c.encode]
  | .jmp a => [6, a.encode]
  | .jt a b => [7, a.encode, b.encode]
  | .jf a b => [8, a.encode, b.encode]
  | .add a b c => [9, a.encode, b.encode, c.encode]
  | .mult a b c => [10, a.encode, b.encode, c.encode]
  | .mod a b c => [11, a.encode, b.encode, c.encode]
  | .and a b c => [12, a.encode, b.encode, c.encode]
  | .or a b c => [13, a.encode, b.encode, c.encode]
  | .not a b => [14, a.encode, b.encode]
  | .rmem a b => [15, a.encode, b.encode]
  | .wmem a b => [16, a.encode, b.encode]
  | .call a => [17, a.encode]
  | .ret => [18]
  | .out a => [19, a.encode]
  | .inp a => [20, a.encode]
  | .noop => [21]

/-- The four cell words of a table word `w` of `nbits` bits: cell k is bits 16k+15 down to 16k, and every
bit at or above `nbits` is 0. Four cells is the longest instruction (R80). -/
def tableWords (nbits w : Nat) : List Word :=
  [0, 1, 2, 3].map fun k => BitVec.ofNat 16 (w % 2 ^ nbits / 2 ^ (16 * k))

/-- The instruction the decoder reads from an instruction whose bits are `w`, numbered as
spec/opcode_table.json numbers them; `none` where it refuses. -/
def decodeTableWord (nbits w : Nat) : Option Instr :=
  match decode (tableWords nbits w) with
  | .ok (i, _) => some i
  | .error _ => none

end Sys2Proof
end

