-- ==== Sys2Proof/Machine/Alu.lean ====
section
/-! DEFINITION. The ALU (spec/44_arith_logic.md R157, R156): a pure function of the opcode and two unsigned
15-bit values. Results are formed exactly on natural numbers and narrowed once. -/

namespace Sys2Proof.Machine

/-- A comparison result: the number 1 or 0 (R130, R131). -/
def aluBit (b : Bool) : Value := if b then 1 else 0

/-- EQ: 1 if vb = vc else 0 (R130). -/
def aluEq (vb vc : Value) : Value := aluBit (decide (vb = vc))

/-- GT: 1 if vb > vc else 0, unsigned (R131). -/
def aluGt (vb vc : Value) : Value := aluBit (decide (vc.toNat < vb.toNat))

/-- ADD: (vb + vc) mod 32768, of the exact sum (R150). -/
def aluAdd (vb vc : Value) : Value := BitVec.ofNat 15 ((vb.toNat + vc.toNat) % 32768)

/-- MULT: (vb * vc) mod 32768, of the exact product (R151). -/
def aluMult (vb vc : Value) : Value := BitVec.ofNat 15 ((vb.toNat * vc.toNat) % 32768)

/-- MOD: the remainder of unsigned division; `none` where vc = 0 and DivisionByZero is to be raised
(R152). -/
def aluMod (vb vc : Value) : Option Value :=
  if vc.toNat = 0 then none else some (BitVec.ofNat 15 (vb.toNat % vc.toNat))

/-- AND: bitwise and (R153). -/
def aluAnd (vb vc : Value) : Value := vb &&& vc

/-- OR: bitwise or (R154). -/
def aluOr (vb vc : Value) : Value := vb ||| vc

/-- NOT: each of the 15 bits inverted (R155). -/
def aluNot (vb : Value) : Value := ~~~vb

end Sys2Proof.Machine
end

