-- ==== Sys2Proof/Config.lean ====
section
/-! DEFINITION. What the document fixes (spec/00_scope.md R6) and the parameters a model takes (R7).
There is no free value: the spec leaves no value open (spec/93_implementation_defined.md). -/

namespace Sys2Proof

/-- `MODULUS` of R6: all stored arithmetic results are reduced modulo this number. -/
abbrev modulus : Nat := 32768

/-- The largest memory, in cells: the upper bound of `MEM_SIZE` (R7, R51). -/
abbrev maxCells : Nat := 32768

/-- `RMEM_HIGH` of R7: what RMEM does with a raw cell word above 32767. -/
inductive RmemHigh where
  /-- The register receives the low 15 bits: the default (R7, R22, R160). -/
  | truncate
  /-- The instruction is given no meaning: the spec's cautious alternative (R7, S11). -/
  | refuse
deriving DecidableEq, Repr

/-- The parameters of R7 that a run does not change. `IMAGE` and `INPUT`, the other two of R7, are the
arguments of reset and the input stream of the state. -/
structure Config where
  /-- `STACK_DEPTH`: `none` is unbounded (R7, R28). -/
  stackDepth : Option Nat
  /-- `RMEM_HIGH` (R7). -/
  rmemHigh : RmemHigh
deriving DecidableEq, Repr

/-- The spec's defaults (R7): an unbounded stack, and RMEM truncates. -/
def Config.default : Config := { stackDepth := none, rmemHigh := .truncate }

end Sys2Proof
end

