-- ==== Sys2Proof/Machine/State.lean ====
section
/-! DEFINITION. The state of the machine, as plain data (spec/10_state.md), its reset value (R34, R240),
and the reasons an outcome of the host's interface can be no next state. -/

namespace Sys2Proof.Machine

/-- A listed cell of memory: its cell address and its 16-bit word (R29, R50). -/
abbrev MemCell := Nat × Word

/-- `MEM` (R29, R51): `size` is `MEM_SIZE`. The cells below `size` that hold a word other than 0 are
listed, addresses strictly rising; a cell below `size` that is not listed holds 0, and no cell exists at or
past `size`. The listing is a way to write down the cells that exist, each with the word it holds, and
invents no cell and no content (notes/assumptions/1.md). -/
structure Memory where
  size : Nat
  cells : List MemCell
deriving DecidableEq, Repr

/-- `STATUS.state` (R27). Its numeric values are `Status.code`. -/
inductive Status where
  | running
  | halted
  | faulted
deriving DecidableEq, Repr

/-- `FAULT.kind` (R27): none, or one of the seven faults of R200. The numeric codes of R201 are
`FaultKind.code`. -/
inductive FaultKind where
  | none
  | invalidOpcode
  | invalidOperandEncoding
  | invalidWriteTarget
  | stackUnderflow
  | addressOutOfRange
  | divisionByZero
  | inputExhausted
deriving DecidableEq, Repr

/-- The `FAULT` register (R27), host-readable only. -/
structure FaultRecord where
  kind : FaultKind
  isp : Word
  opcodeValid : Bool
  opcode : Word
  info : Word
deriving DecidableEq, Repr

/-- Every `FAULT` field 0: the reset value (R34). -/
def FaultRecord.clear : FaultRecord :=
  { kind := .none, isp := 0, opcodeValid := false, opcode := 0, info := 0 }

/-- Everything the spec gives the machine (spec/10_state.md section 1), and the parameters of R7 that
stay fixed in a run. -/
structure State where
  /-- `STACK_DEPTH` and `RMEM_HIGH` (R7); no step and no reset changes them. -/
  config : Config
  /-- `x[0..7]` (R20). -/
  regs : Vector Value 8
  /-- The instruction pointer `pc`, the document's isp (R23). -/
  pc : Word
  /-- `STACK`, oldest entry first (R28). -/
  stack : List Word
  /-- `MEM` and `MEM_SIZE` (R29, R51). -/
  mem : Memory
  /-- `STATUS.state` (R27). -/
  status : Status
  /-- `FAULT` (R27). -/
  fault : FaultRecord
  /-- `OUTPUT`, the first character emitted first (R30). -/
  output : List Chr
  /-- `INPUT`, the next character to deliver first (R30). -/
  input : List Chr
  /-- The `closed` mark of `INPUT` (R30, R183). -/
  inputClosed : Bool
deriving DecidableEq, Repr

/-- The machine right after a reset with the empty image, with the default parameters and before the host
has supplied any input (R34, R240, R241; notes/assumptions/2.md and 3.md). A reset with any image is
`State.resetWith`. -/
def State.reset : State :=
  { config := Config.default
    regs := Vector.replicate 8 0
    pc := 0
    stack := []
    mem := { size := 0, cells := [] }
    status := .running
    fault := FaultRecord.clear
    output := []
    input := []
    inputClosed := false }

/-- Reasons for a `fault` outcome of the host's interface. There is none: each of the seven faults of the
spec (R200) is entered as R208 describes it, which is a next state, and so nobody raises a member of this
type. That is safe: no run is cut short by it. -/
inductive Fault where
deriving DecidableEq, Repr

/-- Reasons for a `refused` outcome. -/
inductive Refusal where
  /-- An instruction that has no meaning yet; raised only by an arm of `exec` that has none. Safe. -/
  | notModelled (mnemonic : String)
  /-- A push at `sp = STACK_DEPTH` of a finite stack, which the spec refuses (R10 outcome 5, R28, U4); raised
  by PUSH and CALL, never under the default parameters. Safe. -/
  | stackFull
  /-- An RMEM of a cell word above 32767 under `RMEM_HIGH` = refuse (R7, S11); raised by RMEM, never under
  the default parameters. Safe. -/
  | rmemHigh
  /-- An image of more than 32768 words handed to a reset (U3, D2); raised by `State.resetWith`, never by a
  step. Safe. -/
  | imageTooLong
deriving DecidableEq, Repr

end Sys2Proof.Machine
end

