-- ==== Sys2Proof/Machine/Flags.lean ====
section
/-! DEFINITION. The core has no flags and no condition codes (spec/10_state.md R26): no instruction computes
one. What stands here is the numeric reading of the only status state, STATUS and FAULT, as the host sees it
(R27, R201). -/

namespace Sys2Proof.Machine

/-- The 2-bit value of `STATUS.state` (R27); 3 never occurs. -/
def Status.code : Status → BitVec 2
  | .running => 0
  | .halted => 1
  | .faulted => 2

/-- The 3-bit fault code of R201. -/
def FaultKind.code : FaultKind → BitVec 3
  | .none => 0
  | .invalidOpcode => 1
  | .invalidOperandEncoding => 2
  | .invalidWriteTarget => 3
  | .stackUnderflow => 4
  | .addressOutOfRange => 5
  | .divisionByZero => 6
  | .inputExhausted => 7

/-- The 1-bit value of `FAULT.opcode_valid` (R27). -/
def FaultRecord.opcodeValidBit (f : FaultRecord) : BitVec 1 :=
  if f.opcodeValid then 1 else 0

end Sys2Proof.Machine
end

