-- ==== Sys2Proof/Machine/Ops.lean ====
section
/-! DEFINITION. The named operations over registers, memory, stack, channels and status that the meanings
share, and fault entry (spec/10_state.md, spec/20_memory.md, spec/60_exceptions.md R208). -/

namespace Sys2Proof.Machine

/-- The outcome of a step or of an instruction (R10): a commit, a halt, a fault entry and a hold are next
states; a refusal is outcome 5. -/
abbrev Out := Host.Outcome State Fault Refusal

/-! ### Field updates -/

/-- `pc <- target` (R9). -/
def State.setPc (s : State) (target : Word) : State := { s with pc := target }

/-- The stack's new contents. -/
def State.setStack (s : State) (l : List Word) : State := { s with stack := l }

/-- The memory's new contents. -/
def State.setMem (s : State) (m : Memory) : State := { s with mem := m }

/-- `STATUS.state <- st` (R27). -/
def State.setStatus (s : State) (st : Status) : State := { s with status := st }

/-- `FAULT <- f` (R27). -/
def State.setFault (s : State) (f : FaultRecord) : State := { s with fault := f }

/-- The output stream's new contents. -/
def State.setOutput (s : State) (l : List Chr) : State := { s with output := l }

/-- The input stream's new contents. -/
def State.setInput (s : State) (l : List Chr) : State := { s with input := l }

/-- The `closed` mark's new value. -/
def State.setInputClosed (s : State) (b : Bool) : State := { s with inputClosed := b }

/-! ### Registers -/

/-- `x[i]` (R9, R20). -/
def State.reg (s : State) (i : RegIdx) : Value := s.regs[i]

/-- `x[i] <- v` (R9): the write port is 15 bits wide and stores `v mod 32768` (R22). -/
def State.writeReg (s : State) (i : RegIdx) (v : Word) : State :=
  { s with regs := s.regs.set i (low15 v) }

/-! ### The instruction pointer -/

/-- `P + n`: the working pointer after the n cells of the instruction at P are fetched (R24, R86). -/
def State.nextPc (s : State) (n : Nat) : Word := s.pc + BitVec.ofNat 16 n

/-! ### Memory -/

/-- The word a listing gives the cell at `k`: 0 where it lists none (`Memory`). -/
def cellAt : List MemCell → Nat → Word
  | [], _ => 0
  | (a, w) :: cs, k => if a = k then w else cellAt cs k

/-- The listing after the cell at `k` gets the word `v`, in the one canonical form: rising addresses, no
word 0 listed. -/
def putCell : List MemCell → Nat → Word → List MemCell
  | [], k, v => if v = 0 then [] else [(k, v)]
  | (a, w) :: cs, k, v =>
    if a < k then (a, w) :: putCell cs k v
    else if a = k then (if v = 0 then cs else (k, v) :: cs)
    else (if v = 0 then (a, w) :: cs else (k, v) :: (a, w) :: cs)

/-- `MemRead(addr, 1)` (R52): the raw word of the cell, or `none` where `addr >= MEM_SIZE` and
AddressOutOfRange is to be raised. -/
def Memory.read (m : Memory) (addr : Nat) : Option Word :=
  if addr < m.size then some (cellAt m.cells addr) else none

/-- `MemWrite(addr, 1, v)` (R53): the memory with that one cell changed, or `none` where
`addr >= MEM_SIZE` and AddressOutOfRange is to be raised. -/
def Memory.write (m : Memory) (addr : Nat) (v : Word) : Option Memory :=
  if addr < m.size then some { m with cells := putCell m.cells addr v } else none

/-- The words of the cells from `addr` on, at most `n` of them, up to the end of memory. -/
def Memory.window (m : Memory) (addr : Nat) : Nat → List Word
  | 0 => []
  | n + 1 =>
    match m.read addr with
    | none => []
    | some w => w :: m.window (addr + 1) n

/-- The listing of an image whose first word stands at cell `k`. -/
def imageCells : Nat → List Word → List MemCell
  | _, [] => []
  | k, w :: ws => if w = 0 then imageCells (k + 1) ws else (k, w) :: imageCells (k + 1) ws

/-- The memory made of an image: `MEM_SIZE` is its length and `MEM[k]` = `IMAGE[k]` (R51). -/
def Memory.ofImage (image : List Word) : Memory :=
  { size := image.length, cells := imageCells 0 image }

/-- A listing with rising addresses, from `lo` on and below `size`, and no word 0. -/
def cellsWf (size : Nat) : Nat → List MemCell → Bool
  | _, [] => true
  | lo, (a, w) :: cs => decide (lo ≤ a) && decide (a < size) && decide (w ≠ 0) && cellsWf size (a + 1) cs

/-- The canonical form: equal memories are equal data. -/
def Memory.wf (m : Memory) : Bool := cellsWf m.size 0 m.cells

/-- RMEM of the cell word `t` is given no meaning: the word is above 32767 and `RMEM_HIGH` = refuse (R7, S11).
Never so under the default `truncate`. -/
def refusesLoad (c : Config) (t : Word) : Bool :=
  match c.rmemHigh with
  | .truncate => false
  | .refuse => decide (32767 < t.toNat)

/-! ### Stack -/

/-- A push has no room: `sp = STACK_DEPTH` of a finite stack (R28). A depth past `STACK_DEPTH` has none
either; no run reaches one. -/
def State.stackFull (s : State) : Bool :=
  match s.config.stackDepth with
  | none => false
  | some d => decide (d ≤ s.stack.length)

/-- `Push(v)` (R9, R28): v becomes the new last entry. -/
def State.push (s : State) (v : Word) : State := s.setStack (s.stack ++ [v])

/-- `Pop()` (R9, R28): the last entry and the state without it, or `none` where the stack is empty and
StackUnderflow is to be raised. -/
def State.pop (s : State) : Option (Word × State) :=
  match s.stack.getLast? with
  | none => none
  | some v => some (v, s.setStack s.stack.dropLast)

/-! ### Channels -/

/-- `OutChar(c)` (R9, R182): the character is appended to `OUTPUT`; the sink is always ready. -/
def State.outChar (s : State) (c : Chr) : State := s.setOutput (s.output ++ [c])

/-- The three conditions of the input channel (R183). -/
inductive InChannel where
  /-- A character is available; with it, the stream after it is taken. -/
  | available (c : Chr) (rest : List Chr)
  /-- None is available and the stream is open. -/
  | noneYet
  /-- None is available and the stream is closed. -/
  | exhausted
deriving DecidableEq, Repr

/-- The condition the input channel is in: characters supplied before the close are delivered first
(R183). -/
def State.inChannel (s : State) : InChannel :=
  match s.input with
  | c :: cs => .available c cs
  | [] => if s.inputClosed then .exhausted else .noneYet

/-! ### Fault entry -/

/-- Fault entry (R208): `STATUS.state` becomes Faulted and `FAULT` is written; registers, memory, stack,
channels and `pc` keep their values, so `pc` = P = `FAULT.isp`. `opcode` is the opcode word, `none` where its
own fetch faulted (R27). There is no return from a fault beside it: no instruction is one, and only reset
leaves Faulted (R210, `State.resetWith`). -/
def State.takeFault (s : State) (kind : FaultKind) (opcode : Option Word) (info : Word) : State :=
  (s.setStatus .faulted).setFault
    { kind := kind
      isp := s.pc
      opcodeValid := opcode.isSome
      opcode := opcode.getD 0
      info := info }

/-- `raise kind(info)` by the instruction `i` at stage 4 or 6 (R9): the step ends as a fault entry with the
opcode of `i` recorded. -/
def raise (i : Instr) (kind : FaultKind) (info : Word) (s : State) : Out :=
  .next (s.takeFault kind (some i.opcode) info)

/-! ### Commit -/

/-- Commit of an `n`-cell instruction that does not change `pc` as its effect: `pc <- wp` = P + n (R24). -/
def State.advance (s : State) (n : Nat) : State := s.setPc (s.nextPc n)

/-- Commit of an `n`-cell instruction that writes the register `d`: `x[d] <- v; pc <- wp` (R87 stage 7). -/
def commitReg (d : RegIdx) (v : Word) (n : Nat) (s : State) : Out :=
  .next ((s.writeReg d v).advance n)

end Sys2Proof.Machine
end

