-- ==== Sys2Proof/Machine/Operands.lean ====
section
/-! DEFINITION. The operand accessors of spec/30_encoding.md: the operand mux (R84) and the write-target
check (R85). The two operand forms, literal and register reference, are all there are (R83). -/

namespace Sys2Proof.Machine

/-- `Val(o)`, the document's resolve_value (R84). -/
def State.val (s : State) : Operand → Value
  | .lit v => v
  | .reg r => s.reg r

/-- `Slot(o)`, the document's resolve_write_slot (R85): the slot, or the literal with which
InvalidWriteTarget is to be raised. -/
def slot : Operand → Except Value RegIdx
  | .reg r => .ok r
  | .lit v => .error v

/-- Stage 4 of R87 for an instruction `i` with the dest-reg operand `a`, then the rest of `i` on the slot:
the check comes before any register read, pop or input (R204, R209). -/
def withSlot (i : Instr) (a : Operand) (s : State) (rest : RegIdx → Out) : Out :=
  match slot a with
  | .ok d => rest d
  | .error v => raise i .invalidWriteTarget (zext16 v) s

end Sys2Proof.Machine
end

