-- ==== Sys2Proof/Machine/Arith.lean ====
section
/-! DEFINITION. ADD, MULT, MOD, AND, OR and NOT (spec/44_arith_logic.md R150 to R155). -/

namespace Sys2Proof.Machine

/-- ADD a, b, c (R150). -/
def execAdd (a b c : Operand) (s : State) : Out :=
  withSlot (.add a b c) a s fun d => commitReg d (zext16 (aluAdd (s.val b) (s.val c))) 4 s

/-- MULT a, b, c (R151). -/
def execMult (a b c : Operand) (s : State) : Out :=
  withSlot (.mult a b c) a s fun d => commitReg d (zext16 (aluMult (s.val b) (s.val c))) 4 s

/-- MOD a, b, c (R152): DivisionByZero(vb) where vc = 0. -/
def execMod (a b c : Operand) (s : State) : Out :=
  withSlot (.mod a b c) a s fun d =>
    match aluMod (s.val b) (s.val c) with
    | none => raise (.mod a b c) .divisionByZero (zext16 (s.val b)) s
    | some r => commitReg d (zext16 r) 4 s

/-- AND a, b, c (R153). -/
def execAnd (a b c : Operand) (s : State) : Out :=
  withSlot (.and a b c) a s fun d => commitReg d (zext16 (aluAnd (s.val b) (s.val c))) 4 s

/-- OR a, b, c (R154). -/
def execOr (a b c : Operand) (s : State) : Out :=
  withSlot (.or a b c) a s fun d => commitReg d (zext16 (aluOr (s.val b) (s.val c))) 4 s

/-- NOT a, b (R155). -/
def execNot (a b : Operand) (s : State) : Out :=
  withSlot (.not a b) a s fun d => commitReg d (zext16 (aluNot (s.val b))) 3 s

end Sys2Proof.Machine
end

