-- ==== Sys2Proof/Machine/CallRet.lean ====
section
/-! DEFINITION. CALL and RET (spec/46_call_ret.md R170, R171). -/

namespace Sys2Proof.Machine

/-- CALL a (R170): `Push(zext_16(wp)); pc <- zext_16(va)`; on a full finite stack, a refusal (R28). -/
def execCall (a : Operand) (s : State) : Out :=
  if s.stackFull then .refused .stackFull
  else .next ((s.push (s.nextPc 2)).setPc (zext16 (s.val a)))

/-- RET (R171): StackUnderflow(0) on an empty stack, else `pc` becomes the popped entry, all 16 bits. -/
def execRet (s : State) : Out :=
  match s.pop with
  | none => raise .ret .stackUnderflow 0 s
  | some (t, s') => .next (s'.setPc t)

end Sys2Proof.Machine
end

