-- ==== Sys2Proof/Machine/Compare.lean ====
section
/-! DEFINITION. EQ and GT (spec/42_compare.md R130, R131). -/

namespace Sys2Proof.Machine

/-- EQ a, b, c (R130). -/
def execEq (a b c : Operand) (s : State) : Out :=
  withSlot (.eq a b c) a s fun d => commitReg d (zext16 (aluEq (s.val b) (s.val c))) 4 s

/-- GT a, b, c (R131). -/
def execGt (a b c : Operand) (s : State) : Out :=
  withSlot (.gt a b c) a s fun d => commitReg d (zext16 (aluGt (s.val b) (s.val c))) 4 s

end Sys2Proof.Machine
end

