-- ==== Sys2Proof/Machine/HaltNoop.lean ====
section
/-! DEFINITION. HALT and NOOP (spec/40_halt_noop.md R110, R111). -/

namespace Sys2Proof.Machine

/-- HALT (R110): `STATUS.state <- Halted; pc <- wp`. -/
def execHalt (s : State) : Out :=
  .next ((s.setStatus .halted).advance 1)

/-- NOOP (R111): `pc <- wp`. -/
def execNoop (s : State) : Out :=
  .next (s.advance 1)

end Sys2Proof.Machine
end

