-- ==== Sys2Proof/Machine/Jump.lean ====
section
/-! DEFINITION. JMP, JT and JF (spec/43_jumps.md R140 to R143). Targets are absolute and not checked against
`MEM_SIZE` here: the next opcode fetch does that (R143 (d)). -/

namespace Sys2Proof.Machine

/-- JMP a (R140): `pc <- zext_16(va)`. -/
def execJmp (a : Operand) (s : State) : Out :=
  .next (s.setPc (zext16 (s.val a)))

/-- JT a, b (R141): the jump is taken where va is not 0. -/
def execJt (a b : Operand) (s : State) : Out :=
  if s.val a ≠ 0 then .next (s.setPc (zext16 (s.val b))) else .next (s.advance 3)

/-- JF a, b (R142): the jump is taken where va is 0. -/
def execJf (a b : Operand) (s : State) : Out :=
  if s.val a = 0 then .next (s.setPc (zext16 (s.val b))) else .next (s.advance 3)

end Sys2Proof.Machine
end

