-- ==== Sys2Proof/Machine/LoadStore.lean ====
section
/-! DEFINITION. RMEM and WMEM (spec/45_rmem_wmem.md R160, R161). -/

namespace Sys2Proof.Machine

/-- RMEM a, b (R160): AddressOutOfRange(vb) where vb is at or past `MEM_SIZE`, else the cell's word goes to
the register, through the 15-bit write port. A word above 32767 is refused under `RMEM_HIGH` = refuse (R7). -/
def execRmem (a b : Operand) (s : State) : Out :=
  withSlot (.rmem a b) a s fun d =>
    match s.mem.read (s.val b).toNat with
    | none => raise (.rmem a b) .addressOutOfRange (zext16 (s.val b)) s
    | some t =>
      if refusesLoad s.config t then .refused .rmemHigh
      else commitReg d t 3 s

/-- WMEM a, b (R161): AddressOutOfRange(va) where va is at or past `MEM_SIZE`, else the cell at va gets
`zext_16(vb)`. -/
def execWmem (a b : Operand) (s : State) : Out :=
  match s.mem.write (s.val a).toNat (zext16 (s.val b)) with
  | none => raise (.wmem a b) .addressOutOfRange (zext16 (s.val a)) s
  | some m => .next ((s.setMem m).advance 3)

end Sys2Proof.Machine
end

