-- ==== Sys2Proof/Machine/OutIn.lean ====
section
/-! DEFINITION. OUT and IN (spec/47_out_in.md R180, R181). -/

namespace Sys2Proof.Machine

/-- OUT a (R180): `OutChar(va[7:0])`. -/
def execOut (a : Operand) (s : State) : Out :=
  .next ((s.outChar (low8 (s.val a))).advance 2)

/-- IN a (R181): takes the oldest character where one is available; holds where none is yet and the stream
is open, which changes nothing, and the same step is attempted again (R10 outcome 4); raises
InputExhausted(0) where the stream is closed and empty. -/
def execInp (a : Operand) (s : State) : Out :=
  withSlot (.inp a) a s fun d =>
    match s.inChannel with
    | .available c rest => commitReg d (zext16 (zext15 c)) 2 (s.setInput rest)
    | .noneYet => .next s
    | .exhausted => raise (.inp a) .inputExhausted 0 s

end Sys2Proof.Machine
end

