-- ==== Sys2Proof/Machine/SetPushPop.lean ====
section
/-! DEFINITION. SET, PUSH and POP (spec/41_set_push_pop.md R120 to R122). -/

namespace Sys2Proof.Machine

/-- SET a, b (R120): `x[s] <- vb`. -/
def execSet (a b : Operand) (s : State) : Out :=
  withSlot (.set a b) a s fun d => commitReg d (zext16 (s.val b)) 3 s

/-- PUSH a (R121): `Push(zext_16(va))`; on a full finite stack, a refusal (R28). -/
def execPush (a : Operand) (s : State) : Out :=
  if s.stackFull then .refused .stackFull
  else .next ((s.push (zext16 (s.val a))).advance 2)

/-- POP a (R122): StackUnderflow(0) on an empty stack, else the last entry goes to the register, through
the 15-bit write port. -/
def execPop (a : Operand) (s : State) : Out :=
  withSlot (.pop a) a s fun d =>
    match s.pop with
    | none => raise (.pop a) .stackUnderflow 0 s
    | some (t, s') => commitReg d t 2 s'

end Sys2Proof.Machine
end

