-- ==== Sys2Proof/Machine/Fetch.lean ====
section
/-! DEFINITION. Fetching the next instruction (spec/30_encoding.md R86, R87 stages 1 to 3), and how the
events that stop those stages are raised (spec/60_exceptions.md R201, R206). -/

namespace Sys2Proof.Machine

/-- The words the fetches of one step can read: the cells P, P+1, P+2, P+3 as far as they exist (R80: an
instruction is at most four cells). Reading a cell has no side effect (R52), so reading one the instruction
does not have changes nothing. -/
def State.fetchWindow (s : State) : List Word := s.mem.window s.pc.toNat 4

/-- Stages 1 to 3 of R87: the instruction at P, or the first event that stops them. -/
def State.fetch (s : State) : Except DecodeError Instr :=
  match decode s.fetchWindow with
  | .ok (i, _) => .ok i
  | .error e => .error e

/-- The state after the fault that a stage 1 to 3 event raises (R201, R206, R208). `FAULT.info` of a fetch
is the address that could not be read: P, or P + 1 + k for operand k. -/
def State.takeDecodeFault (s : State) : DecodeError → State
  | .noOpcode => s.takeFault .addressOutOfRange none s.pc
  | .invalidOpcode op => s.takeFault .invalidOpcode (some op) op
  | .operandMissing op k => s.takeFault .addressOutOfRange (some op) (s.nextPc (1 + k))
  | .invalidOperand op w => s.takeFault .invalidOperandEncoding (some op) w

/-- The memory with `words` placed from `addr` on, as long as that takes. This is no operation of the
machine: it stands for a loader that hands over such an image. -/
def Memory.place (m : Memory) (addr : Nat) : List Word → Memory
  | [] => m
  | w :: ws =>
    Memory.place { size := max m.size (addr + 1), cells := putCell m.cells addr w } (addr + 1) ws

end Sys2Proof.Machine
end

