-- ==== Sys2Proof/Machine/Step.lean ====
section
/-! DEFINITION. One step of the core (spec/30_encoding.md R87), and placing an instruction where the next
step fetches it. -/

namespace Sys2Proof.Machine

/-- One step (R87). While Running: fetch and decode, then execute; the first event that raises ends the step
as a fault entry. In Halted and in Faulted the core performs no step, fetch or transfer and its state is
frozen (R27, R245): the outcome is the same state (notes/assumptions/5.md). -/
def step (s : State) : Host.Outcome State Fault Refusal :=
  match s.status with
  | .running =>
    match s.fetch with
    | .ok i => exec i s
    | .error e => .next (s.takeDecodeFault e)
  | .halted => .next s
  | .faulted => .next s

/-- `s` with the instruction whose bits are `w` in the four cells from `pc` on, and Running: what the next
step fetches and runs (notes/assumptions/6.md). -/
def State.withFetchWord (s : State) (nbits w : Nat) : State :=
  (s.setMem (s.mem.place s.pc.toNat (tableWords nbits w))).setStatus .running

end Sys2Proof.Machine
end

