-- ==== Sys2Proof/Machine/HostActions.lean ====
section
/-! DEFINITION. What the host may do to the state from outside a step (spec/70_reset_and_hazards.md R240,
R248). None of these is a step of the core. DESIGN CHOICE: each has its effect whatever STATUS is, also where
the table of R248 does not list it, a reset while Running, a character or the close in Halted or in Faulted
(notes/assumptions/15.md). -/

namespace Sys2Proof.Machine

/-- Reset with an image (R240): every piece of the core's state at once; the input stream is the host's and
is not changed (R34). An image of more than 32768 words is refused (U3). R248 lists a reset before a run and
after it is over; that one while Running has the same effect is the model's choice
(notes/assumptions/15.md). -/
def State.resetWith (image : List Word) (s : State) : Out :=
  if image.length ≤ maxCells then
    .next
      { config := s.config
        regs := Vector.replicate 8 0
        pc := 0
        stack := []
        mem := Memory.ofImage image
        status := .running
        fault := FaultRecord.clear
        output := []
        input := s.input
        inputClosed := s.inputClosed }
  else .refused .imageTooLong

/-- The host appends a character to the input stream during a run (R248); that it may do so after the run is
over is the model's choice (notes/assumptions/15.md). Closing is permanent (R183): a closed stream
takes no further character (notes/assumptions/7.md). -/
def State.supplyChar (c : Chr) (s : State) : State :=
  if s.inputClosed then s else s.setInput (s.input ++ [c])

/-- The host closes the input stream during a run, for good (R183, R248); that it may do so after the run is
over is the model's choice (notes/assumptions/15.md). -/
def State.closeInput (s : State) : State := s.setInputClosed true

end Sys2Proof.Machine
end

