-- ==== Sys2Proof/Safety.lean ====
section
/-! DEFINITION. The terms in which claims about the core are stated: what a commit and a fault entry leave
unchanged, the invariant of R33, the fault table of R201, and the staged fetch of R87 as it is written. -/

namespace Sys2Proof.Machine

/-! ### Frames -/

/-- Every register holds what it held. -/
def SameRegs (s t : State) : Prop := ∀ r, t.reg r = s.reg r

/-- Register `d` holds the number `v`, and every other register what it held. -/
def WritesReg (d : RegIdx) (v : Nat) (s t : State) : Prop :=
  (t.reg d).toNat = v ∧ ∀ r, r ≠ d → t.reg r = s.reg r

/-- The same cells exist, and reading any address gives what it gave. -/
def SameMem (s t : State) : Prop := t.mem.size = s.mem.size ∧ ∀ k, t.mem.read k = s.mem.read k

/-- The stack holds the same entries. -/
def SameStack (s t : State) : Prop := t.stack = s.stack

/-- Both character channels are as they were. -/
def SameChannels (s t : State) : Prop :=
  t.output = s.output ∧ t.input = s.input ∧ t.inputClosed = s.inputClosed

/-- STATUS, FAULT and the parameters are as they were. -/
def SameRun (s t : State) : Prop := t.status = s.status ∧ t.fault = s.fault ∧ t.config = s.config

/-- `pc` = P + n. -/
def PcPlus (n : Nat) (s t : State) : Prop := t.pc = s.pc + BitVec.ofNat 16 n

/-- The commit of an `n`-cell instruction that writes the number `v` to the register `d` and nothing else. -/
structure RegCommit (d : RegIdx) (v : Nat) (n : Nat) (s t : State) : Prop where
  regs : WritesReg d v s t
  pc : PcPlus n s t
  mem : SameMem s t
  stack : SameStack s t
  channels : SameChannels s t
  run : SameRun s t

/-- Everything but `pc` is as it was. -/
structure OnlyPc (s t : State) : Prop where
  regs : SameRegs s t
  mem : SameMem s t
  stack : SameStack s t
  channels : SameChannels s t
  run : SameRun s t

/-! ### Faults -/

/-- The run has ended as a fault of this kind. -/
def FaultedAs (kind : FaultKind) (t : State) : Prop := t.status = .faulted ∧ t.fault.kind = kind

/-- Fault entry as R208 has it: STATUS and FAULT are written, with `FAULT.isp` = P, and nothing else
changes. `opcode` is the opcode word, `none` where its own fetch faulted. -/
structure FaultEntry (kind : FaultKind) (opcode : Option Word) (info : Nat) (s t : State) : Prop where
  status : t.status = .faulted
  kind_eq : t.fault.kind = kind
  isp : t.fault.isp = s.pc
  valid : t.fault.opcodeValid = opcode.isSome
  opcode_eq : t.fault.opcode = opcode.getD 0
  info_eq : t.fault.info.toNat = info
  pc : t.pc = s.pc
  regs : SameRegs s t
  mem : SameMem s t
  stack : SameStack s t
  channels : SameChannels s t
  config : t.config = s.config

/-- The opcode numbers of the twelve register-writing instructions (R21, R201 row 3). -/
def registerWriters : List Nat := [1, 3, 4, 5, 9, 10, 11, 12, 13, 14, 15, 20]

/-- What the table of R201 allows a FAULT record to hold in a memory of `size` cells. -/
def FaultRecord.FollowsTable (size : Nat) (f : FaultRecord) : Prop :=
  match f.kind with
  | .none => f = FaultRecord.clear
  | .invalidOpcode => f.opcodeValid = true ∧ 21 < f.opcode.toNat ∧ f.info = f.opcode
  | .invalidOperandEncoding => f.opcodeValid = true ∧ f.opcode.toNat ≤ 21 ∧ 32776 ≤ f.info.toNat
  | .invalidWriteTarget =>
    f.opcodeValid = true ∧ f.opcode.toNat ∈ registerWriters ∧ f.info.toNat ≤ 32767
  | .stackUnderflow => f.opcodeValid = true ∧ f.opcode.toNat ∈ [3, 18] ∧ f.info = 0
  | .addressOutOfRange =>
    size ≤ f.info.toNat ∧
      (if f.opcodeValid then f.opcode.toNat ≤ 21 else f.opcode = 0 ∧ f.info = f.isp)
  | .divisionByZero => f.opcodeValid = true ∧ f.opcode.toNat = 11 ∧ f.info.toNat ≤ 32767
  | .inputExhausted => f.opcodeValid = true ∧ f.opcode.toNat = 20 ∧ f.info = 0

/-- The instruction `i` commits: it leaves the run as it was, moves `pc` to `target`, and no fault is raised.
The step after it faults at its opcode fetch, with that address and no opcode. -/
def CommitsThenFaultsAt (target : Nat) (i : Instr) (s : State) : Prop :=
  ∃ t u, exec i s = .next t ∧ SameRun s t ∧ t.pc.toNat = target ∧
    step t = .next u ∧ FaultEntry .addressOutOfRange none target t u

/-! ### Runs -/

/-- The run is over (R245). -/
def State.runOver (s : State) : Bool := decide (s.status ≠ .running)

/-- A safe state of a run: it has not ended in a fault. -/
def State.safe (s : State) : Bool := decide (s.status ≠ .faulted)

/-- A push has room: the stack is unbounded, or finite and not full (R28). -/
def State.HasRoom (s : State) : Prop := ∀ n, s.config.stackDepth = some n → s.stack.length < n

/-- A `pc`-range number of a memory of `size` cells: an operand value, or a return address, which is at
most `size` (R25, R33 (d), (e)). -/
def InPcRange (size : Nat) (w : Word) : Prop := w.toNat ≤ 32767 ∨ w.toNat ≤ size

/-- What holds in every state reachable from a reset (R33; R7 and R51 for the size and the depth, R27 for
STATUS and FAULT; the canonical form of the memory's listing). -/
structure State.Inv (s : State) : Prop where
  memWf : s.mem.wf = true
  memSize : s.mem.size ≤ maxCells
  pcRange : InPcRange s.mem.size s.pc
  stackRange : ∀ e ∈ s.stack, InPcRange s.mem.size e
  stackDepth : ∀ n, s.config.stackDepth = some n → s.stack.length ≤ n
  faultClear : s.status ≠ .faulted → s.fault = FaultRecord.clear
  faultKept : s.status = .faulted →
    s.fault.kind ≠ .none ∧ s.fault.isp = s.pc ∧ s.fault.FollowsTable s.mem.size

/-! ### The staged fetch, as R87 writes it -/

/-- All operands in the order they are stored: the destination, which is always position a, then the
values (R80). -/
def operandsOf (i : Instr) : List Operand := i.dest.toList ++ i.sources

/-- Stage 3 of R87: `n` more operands from number `k` on, each fetched from the cell P + 1 + k and then
classified. -/
def stagedOperands (m : Memory) (op : Word) (p : Nat) (k : Nat) : Nat → Except DecodeError (List Operand)
  | 0 => .ok []
  | n + 1 =>
    match m.read (p + 1 + k) with
    | none => .error (.operandMissing op k)
    | some w =>
      match decodeOperand w with
      | none => .error (.invalidOperand op w)
      | some o =>
        match stagedOperands m op p (k + 1) n with
        | .error e => .error e
        | .ok os => .ok (o :: os)

/-- Stages 1 to 3 of R87, one `Fetch()` (R86) after the other: the opcode word and the operands. -/
def stagedFetch (m : Memory) (p : Nat) : Except DecodeError (Word × List Operand) :=
  match m.read p with
  | none => .error .noOpcode
  | some op =>
    match arity op with
    | none => .error (.invalidOpcode op)
    | some n =>
      match stagedOperands m op p 0 n with
      | .error e => .error e
      | .ok os => .ok (op, os)

end Sys2Proof.Machine
end

