-- ==== Sys2Proof/Certificates/Slice0/Obligations.lean ====
section
/-! DEFINITION. The statements about the core, from the numbered rules of the spec. Statements about an
instruction are about `exec`, stages 4 to 7 of a step (R87), on every state; that a step runs the decoded
instruction, and the faults of stages 1 to 3, are statements of their own. -/

open Sys2Proof Sys2Proof.Machine

/-! ### Encoding and decoding -/

/-- The words of every instruction are those of the opcode table, and decoding them gives that instruction
and leaves the words after it: every operand at every value, a literal in a destination position included
(R80, R82, R83; seventeen of the opcode numbers are the spec's own derivation). -/
def Obligations.DecodeReadsBackEveryEncoding : Prop :=
  (∀ (i : Instr) (rest : List Word), decode (encode i ++ rest) = .ok (i, rest)) ∧
  (∀ a b c : Operand,
    encode .halt = [0] ∧ encode (.set a b) = [1, a.encode, b.encode] ∧ encode (.push a) = [2, a.encode] ∧
    encode (.pop a) = [3, a.encode] ∧ encode (.eq a b c) = [4, a.encode, b.encode, c.encode] ∧
    encode (.gt a b c) = [5, a.encode, b.encode, c.encode] ∧ encode (.jmp a) = [6, a.encode] ∧
    encode (.jt a b) = [7, a.encode, b.encode] ∧ encode (.jf a b) = [8, a.encode, b.encode] ∧
    encode (.add a b c) = [9, a.encode, b.encode, c.encode] ∧
    encode (.mult a b c) = [10, a.encode, b.encode, c.encode] ∧
    encode (.mod a b c) = [11, a.encode, b.encode, c.encode] ∧
    encode (.and a b c) = [12, a.encode, b.encode, c.encode] ∧
    encode (.or a b c) = [13, a.encode, b.encode, c.encode] ∧ encode (.not a b) = [14, a.encode, b.encode] ∧
    encode (.rmem a b) = [15, a.encode, b.encode] ∧ encode (.wmem a b) = [16, a.encode, b.encode] ∧
    encode (.call a) = [17, a.encode] ∧ encode .ret = [18] ∧ encode (.out a) = [19, a.encode] ∧
    encode (.inp a) = [20, a.encode] ∧ encode .noop = [21]) ∧
  (∀ v : Value, (Operand.lit v).encode.toNat = v.toNat) ∧
  (∀ r : RegIdx, (Operand.reg r).encode.toNat = 32768 + r.val)

/-- Words decode to an instruction only if they begin with exactly that instruction's words: no encoding
behaves as another instruction (R90, R91). -/
def Obligations.EncodingIsTheOnlyWordsOfAnInstruction : Prop :=
  ∀ (ws : List Word) (i : Instr) (rest : List Word), decode ws = .ok (i, rest) → ws = encode i ++ rest

/-- The opcode word is compared whole with 0 to 21 and is no operand; in bits, `w[15:5]` = 0 and
`w[4:0]` <= 21, and the number is then `w[4:0]` (R81; the form in bits is the spec's own derivation). -/
def Obligations.OpcodeWordIsCheckedWhole : Prop :=
  (∀ (op : Word) (ws : List Word), 21 < op.toNat → decode (op :: ws) = .error (.invalidOpcode op)) ∧
  (∀ (op : Word) (ws : List Word) (i : Instr) (rest : List Word),
    decode (op :: ws) = .ok (i, rest) → op.toNat ≤ 21 ∧ i.opcode = op) ∧
  (∀ (op op' : Word) (ws : List Word),
    decode (op :: ws) = .error (.invalidOpcode op') → op' = op ∧ 21 < op.toNat) ∧
  (∀ op : Word, op.toNat ≤ 21 ↔ op.extractLsb' 5 11 = 0 ∧ (op.extractLsb' 0 5).toNat ≤ 21) ∧
  (∀ op : Word, op.toNat ≤ 21 → (op.extractLsb' 0 5).toNat = op.toNat)

/-- Operand words 0 to 32767 are that literal, 32768 to 32775 are registers 0 to 7, and all others are
invalid; in bits, bit 15 clear, and bit 15 set with bits 14 to 3 clear (R83; the form in bits is the spec's
own derivation). -/
def Obligations.OperandWordsAreClassified : Prop :=
  (∀ w : Word, w.toNat ≤ 32767 → ∃ v : Value, decodeOperand w = some (.lit v) ∧ v.toNat = w.toNat) ∧
  (∀ w : Word, 32768 ≤ w.toNat → w.toNat ≤ 32775 →
    ∃ r : RegIdx, decodeOperand w = some (.reg r) ∧ 32768 + r.val = w.toNat) ∧
  (∀ w : Word, 32776 ≤ w.toNat → decodeOperand w = none) ∧
  (∀ w : Word, w.toNat ≤ 32767 ↔ w.getLsbD 15 = false) ∧
  (∀ w : Word, (32768 ≤ w.toNat ∧ w.toNat ≤ 32775) ↔ (w.getLsbD 15 = true ∧ w.extractLsb' 3 12 = 0))

/-- Of an instruction's operands the leftmost one that is missing or invalid is reported, whether or not
the instruction would use it, and nothing to its right matters (R203, R209 item 3, R83). -/
def Obligations.LeftmostOperandEventIsReported : Prop :=
  ∀ (op : Word) (ws : List Word) (n k : Nat), arity op = some n → k < n →
    (∀ j, j < k → ∃ w o, ws[j]? = some w ∧ decodeOperand w = some o) →
    (ws[k]? = none → decode (op :: ws) = .error (.operandMissing op k)) ∧
    (∀ w, ws[k]? = some w → decodeOperand w = none → decode (op :: ws) = .error (.invalidOperand op w))

/-- The words of the document's own scenarios decode to the instructions it names, and its three operand
test points to what it says (R82, R83). -/
def Obligations.DecodesTheDocumentsWords : Prop :=
  decode [0] = .ok (.halt, []) ∧
  decode [3, 32768] = .ok (.pop (.reg 0), []) ∧
  decode [9, 32768, 4, 4, 19, 32768, 0] = .ok (.add (.reg 0) (.lit 4) (.lit 4), [19, 32768, 0]) ∧
  decode [9, 32768, 32769, 4] = .ok (.add (.reg 0) (.reg 1) (.lit 4), []) ∧
  decode [19, 32768, 0] = .ok (.out (.reg 0), [0]) ∧
  decode [11, 32768, 4, 0] = .ok (.mod (.reg 0) (.lit 4) (.lit 0), []) ∧
  decodeOperand 32775 = some (.reg 7) ∧ decodeOperand 32776 = none ∧
  decodeOperand 32767 = some (.lit 32767)

/-- An instruction's length is fixed by its opcode word alone, as the format table gives it, and decoding
takes exactly that many operand words (R80, R91). Which number has which format rests on R82, where seventeen of
the opcode numbers are the spec's own derivation (notes/assumptions/10.md). -/
def Obligations.LengthIsFixedByTheOpcodeWord : Prop :=
  (∀ op : Word, arity op = some 0 ↔ op.toNat ∈ [0, 18, 21]) ∧
  (∀ op : Word, arity op = some 1 ↔ op.toNat ∈ [2, 3, 6, 17, 19, 20]) ∧
  (∀ op : Word, arity op = some 2 ↔ op.toNat ∈ [1, 7, 8, 14, 15, 16]) ∧
  (∀ op : Word, arity op = some 3 ↔ op.toNat ∈ [4, 5, 9, 10, 11, 12, 13]) ∧
  (∀ (op : Word) (ws rest : List Word) (i : Instr), decode (op :: ws) = .ok (i, rest) →
    ∃ n, arity op = some n ∧ n ≤ ws.length ∧ rest = ws.drop n)

/-! ### The step -/

/-- A running step executes the instruction that the cells at `pc` decode to (R87). -/
def Obligations.StepRunsDecodedInstruction : Prop :=
  ∀ (s : State) (i : Instr) (rest : List Word), s.status = .running →
    decode s.fetchWindow = .ok (i, rest) → step s = exec i s

/-- Where an instruction's words stand in memory from `pc` on, a running step executes it, whatever stands
after them (R80, R86, R87). -/
def Obligations.StepRunsTheInstructionStandingAtPc : Prop :=
  ∀ (s : State) (i : Instr), s.status = .running →
    (∀ k w, (encode i)[k]? = some w → s.mem.read (s.pc.toNat + k) = some w) → step s = exec i s

/-- The faults of stages 1 to 3, with what FAULT records: an opcode fetch past the end, an invalid opcode,
an operand fetch past the end, an invalid operand word (R201, R202, R203, R206; the record and the
untouched rest are the spec's decisions D10 to D12). -/
def Obligations.StepRaisesFetchAndDecodeFaults : Prop :=
  (∀ s : State, s.status = .running → s.mem.size ≤ s.pc.toNat →
    ∃ t, step s = .next t ∧ FaultEntry .addressOutOfRange none s.pc.toNat s t) ∧
  (∀ (s : State) (op : Word), s.status = .running → s.mem.read s.pc.toNat = some op → 21 < op.toNat →
    ∃ t, step s = .next t ∧ FaultEntry .invalidOpcode (some op) op.toNat s t) ∧
  (∀ (s : State) (op : Word) (n k : Nat), s.status = .running → s.mem.size ≤ maxCells →
    s.mem.read s.pc.toNat = some op → arity op = some n → k < n →
    (∀ j, j < k → ∃ w o, s.mem.read (s.pc.toNat + 1 + j) = some w ∧ decodeOperand w = some o) →
    (s.mem.size ≤ s.pc.toNat + 1 + k →
      ∃ t, step s = .next t ∧ FaultEntry .addressOutOfRange (some op) (s.pc.toNat + 1 + k) s t) ∧
    (∀ w, s.mem.read (s.pc.toNat + 1 + k) = some w → 32776 ≤ w.toNat →
      ∃ t, step s = .next t ∧ FaultEntry .invalidOperandEncoding (some op) w.toNat s t))

/-- The step's fetch is the staged loop of R87: `Fetch()` and classify, cell by cell, the first event
ending it. -/
def Obligations.FetchFollowsTheStages : Prop :=
  ∀ s : State,
    (∀ i, s.fetch = .ok i → stagedFetch s.mem s.pc.toNat = .ok (i.opcode, operandsOf i)) ∧
    (∀ e, s.fetch = .error e → stagedFetch s.mem s.pc.toNat = .error e)

/-- In Halted and in Faulted nothing ever changes (R27, R245). That a step outside Running answers the same
state is the model's choice, notes/assumptions/5.md. -/
def Obligations.EndedRunIsFrozen : Prop :=
  ∀ s : State, s.status ≠ .running → step s = .next s

/-- A step always answers a next state, but for the two refusals the spec lets a parameter cause (R10, R28,
R7); under the default parameters it always does (the refusals are the spec's decisions D4 and D6). In Halted and
Faulted, where the spec has no step, that there is a next state is the model's choice (notes/assumptions/5.md). -/
def Obligations.StepIsRefusedOnlyByAParameter : Prop :=
  ∀ s : State,
    ((∃ t, step s = .next t) ∨
      (step s = .refused .stackFull ∧ ¬ s.HasRoom ∧ ∃ a, s.fetch = .ok (.push a) ∨ s.fetch = .ok (.call a)) ∨
      (step s = .refused .rmemHigh ∧ s.config.rmemHigh = .refuse ∧ ∃ a b, s.fetch = .ok (.rmem a b))) ∧
    (s.config = Config.default → ∃ t, step s = .next t)

/-! ### Invariants and reset -/

/-- Every step keeps the invariant: the canonical memory, the range of `pc` and of every stack entry, the
stack's depth, and that STATUS and FAULT agree, FAULT as its table has it (R33, R25, R27, R201). Parts of the
invariant are the spec's own choices: at most 32768 cells (D2), stack entries up to `MEM_SIZE` (D5), FAULT.isp =
`pc` (D10), the fields of FAULT per kind (D12), and the opcode numbers FAULT may hold (R82's derivation,
notes/assumptions/10.md). The canonical listing is the model's (notes/assumptions/1.md), and so is the step from
Halted or Faulted (notes/assumptions/5.md). -/
def Obligations.StepKeepsTheInvariant : Prop :=
  ∀ s t : State, s.Inv → step s = .next t → t.Inv

/-- The reset state meets the invariant. -/
def Obligations.ResetMeetsTheInvariant : Prop := State.reset.Inv

/-- What a reset with an image leaves, piece by piece (R34): the input stream is not touched. Two things in it are
the model's choices: that a reset while Running has this effect too (notes/assumptions/15.md), and that the
parameters stand in State and are untouched (notes/assumptions/4.md). -/
def Obligations.ResetWithImageSetsEveryPiece : Prop :=
  ∀ (image : List Word) (s : State), image.length ≤ 32768 →
    ∃ t, s.resetWith image = .next t ∧
      (∀ r, (t.reg r).toNat = 0) ∧ t.pc = 0 ∧ t.stack = [] ∧
      t.mem.size = image.length ∧ (∀ k, t.mem.read k = image[k]?) ∧
      t.status = .running ∧
      t.fault.kind = .none ∧ t.fault.isp = 0 ∧ t.fault.opcodeValid = false ∧ t.fault.opcode = 0 ∧
      t.fault.info = 0 ∧
      t.output = [] ∧ t.input = s.input ∧ t.inputClosed = s.inputClosed ∧ t.config = s.config

/-- What the host does keeps the invariant: a reset from any state, a character, the close (R240, R248). An
image of more than 32768 words is refused (the spec's decision D2). That they may be done whatever STATUS is, is
the model's choice (notes/assumptions/15.md). -/
def Obligations.HostActionsKeepTheInvariant : Prop :=
  (∀ (image : List Word) (s t : State), s.resetWith image = .next t → t.Inv) ∧
  (∀ (image : List Word) (s : State), 32768 < image.length → s.resetWith image = .refused .imageTooLong) ∧
  (∀ (c : Chr) (s : State), s.Inv → (s.supplyChar c).Inv) ∧
  (∀ s : State, s.Inv → s.closeInput.Inv)

/-! ### Status and faults -/

/-- Halted is reached exactly by executing HALT (R245, R171: no other instruction ends a run normally).
That a step from Faulted answers the same state is the model's choice (notes/assumptions/5.md). -/
def Obligations.HaltedIsReachedOnlyByHalt : Prop :=
  (∀ s t : State, step s = .next t → s.status ≠ .halted → t.status = .halted →
    s.status = .running ∧ s.fetch = .ok .halt) ∧
  (∀ s : State, s.status = .running → s.fetch = .ok .halt → ∃ t, step s = .next t ∧ t.status = .halted)

/-- STATUS changes only from Running, to Halted or to Faulted, and FAULT only in the step that faults
(R27). That a step from Halted or Faulted answers the same state is the model's choice (notes/assumptions/5.md). -/
def Obligations.StatusChangesOnlyAtTheEnd : Prop :=
  ∀ s t : State, step s = .next t →
    (t.status = s.status ∧ t.fault = s.fault) ∨
    (s.status = .running ∧ t.status = .halted ∧ t.fault = s.fault) ∨
    (s.status = .running ∧ t.status = .faulted ∧ t.fault.kind ≠ .none)

/-- A step that faults is a fault entry: FAULT.isp = P = `pc`, nothing but STATUS and FAULT differs, and the
core then stops (R208, R88; that there is no partial effect is the spec's decision D10, and that the
stopped core answers the same state is notes/assumptions/5.md). -/
def Obligations.FaultsArePrecise : Prop :=
  ∀ s t : State, s.status = .running → step s = .next t → t.status = .faulted →
    (∃ kind opcode info, kind ≠ .none ∧ FaultEntry kind opcode info s t) ∧ step t = .next t

/-- Each fault kind is raised only in the situation R201 gives it. -/
def Obligations.FaultKindNamesItsCause : Prop :=
  ∀ s t : State, s.status = .running → step s = .next t → t.status = .faulted →
    match t.fault.kind with
    | .none => False
    | .invalidOpcode => ∃ op, s.mem.read s.pc.toNat = some op ∧ 21 < op.toNat
    | .invalidOperandEncoding => ∃ op w, s.fetch = .error (.invalidOperand op w) ∧ 32776 ≤ w.toNat
    | .invalidWriteTarget => ∃ i v, s.fetch = .ok i ∧ i.dest = some (.lit v)
    | .stackUnderflow => s.stack = [] ∧ ((∃ d, s.fetch = .ok (.pop (.reg d))) ∨ s.fetch = .ok .ret)
    | .addressOutOfRange =>
      s.mem.size ≤ s.pc.toNat ∨
      (∃ op k, s.fetch = .error (.operandMissing op k)) ∨
      (∃ d b, s.fetch = .ok (.rmem (.reg d) b) ∧ s.mem.size ≤ (s.val b).toNat) ∨
      (∃ a b, s.fetch = .ok (.wmem a b) ∧ s.mem.size ≤ (s.val a).toNat)
    | .divisionByZero => ∃ d b c, s.fetch = .ok (.mod (.reg d) b c) ∧ (s.val c).toNat = 0
    | .inputExhausted =>
      (∃ d, s.fetch = .ok (.inp (.reg d))) ∧ s.input = [] ∧ s.inputClosed = true

/-- A literal in the destination position of any of the twelve register-writing instructions is
InvalidWriteTarget with the literal as its info, before any pop, input or other fault of the instruction
(R85, R204, R209; the position in the order is the spec's decision D9, the untouched rest and the record are D10
to D12, and the opcode numbers of the twelve, which FAULT records, rest on R82's derivation,
notes/assumptions/10.md). -/
def Obligations.LiteralDestinationFaults : Prop :=
  (∀ i : Instr, i.dest.isSome = true ↔ i.opcode.toNat ∈ registerWriters) ∧
  (∀ (i : Instr) (v : Value) (s : State), i.dest = some (.lit v) →
    ∃ t, exec i s = .next t ∧ FaultEntry .invalidWriteTarget (some i.opcode) v.toNat s t)

/-- The execute-stage faults, each with what FAULT records and nothing else changed: POP and RET on an empty
stack, MOD by 0 with the dividend, RMEM and WMEM past the end with the address, IN on a stream that is closed
and empty (R201; the record and the untouched rest are the spec's decisions D10 to D12, and of the opcode numbers
FAULT records here 15, 16, 18 and 20 are R82's derivation, notes/assumptions/10.md). -/
def Obligations.ExecuteFaultsAreRecorded : Prop :=
  (∀ (d : RegIdx) (s : State), s.stack = [] →
    ∃ t, exec (.pop (.reg d)) s = .next t ∧ FaultEntry .stackUnderflow (some 3) 0 s t) ∧
  (∀ s : State, s.stack = [] → ∃ t, exec .ret s = .next t ∧ FaultEntry .stackUnderflow (some 18) 0 s t) ∧
  (∀ (d : RegIdx) (b c : Operand) (s : State), (s.val c).toNat = 0 →
    ∃ t, exec (.mod (.reg d) b c) s = .next t ∧
      FaultEntry .divisionByZero (some 11) (s.val b).toNat s t) ∧
  (∀ (d : RegIdx) (b : Operand) (s : State), s.mem.size ≤ (s.val b).toNat →
    ∃ t, exec (.rmem (.reg d) b) s = .next t ∧
      FaultEntry .addressOutOfRange (some 15) (s.val b).toNat s t) ∧
  (∀ (a b : Operand) (s : State), s.mem.size ≤ (s.val a).toNat →
    ∃ t, exec (.wmem a b) s = .next t ∧
      FaultEntry .addressOutOfRange (some 16) (s.val a).toNat s t) ∧
  (∀ (d : RegIdx) (s : State), s.input = [] → s.inputClosed = true →
    ∃ t, exec (.inp (.reg d)) s = .next t ∧ FaultEntry .inputExhausted (some 20) 0 s t)

/-! ### Whole-machine rules -/

/-- Depth changes: PUSH +1, CALL +1, POP -1, RET -1, every other instruction 0, a faulting instruction 0;
the entries below stay. Only emptiness is checked: StackUnderflow on POP and RET, and exactly there (R172). That
a POP with a literal destination is no StackUnderflow, on an empty stack too, is the spec's decision D9, and that
a faulting instruction leaves the stack alone D10. -/
def Obligations.StackDepthChanges : Prop :=
  ∀ (i : Instr) (s t : State), s.status = .running → exec i s = .next t →
    (if t.status = .faulted then t.stack = s.stack
     else match i with
      | .push _ | .call _ => ∃ w, t.stack = s.stack ++ [w]
      | .pop _ | .ret => ∃ w, s.stack = t.stack ++ [w]
      | _ => t.stack = s.stack) ∧
    (FaultedAs .stackUnderflow t ↔ s.stack = [] ∧ (i = .ret ∨ ∃ d, i = .pop (.reg d)))

/-- A register changes only if it is the dest-reg operand of the instruction (R21). -/
def Obligations.RegistersAreWrittenOnlyThroughTheDestination : Prop :=
  ∀ (i : Instr) (s t : State) (r : RegIdx), exec i s = .next t → t.reg r ≠ s.reg r →
    i.dest = some (.reg r)

/-- A register no value operand names has no influence on what an instruction does: changing it changes
nothing in the outcome but, at most, that register itself (R21, R84). -/
def Obligations.UnnamedRegisterHasNoInfluence : Prop :=
  ∀ (i : Instr) (s : State) (r : RegIdx) (v : Word), .reg r ∉ i.sources →
    (∀ t, exec i s = .next t → ∃ t', exec i (s.writeReg r v) = .next t' ∧
      (∀ q, q ≠ r → t'.reg q = t.reg q) ∧ t'.pc = t.pc ∧
      SameMem t t' ∧ SameStack t t' ∧ SameChannels t t' ∧ SameRun t t') ∧
    (∀ q, exec i s = .refused q → exec i (s.writeReg r v) = .refused q)

/-- Memory changes only by WMEM, at its address alone, and a word the core writes is at most 32767; the
memory's size and the parameters never change (R33 (c), R51, R53, R161). That the parameters stand in State and
that a step from Halted or Faulted answers the same state are the model's choices (notes/assumptions/4.md and
5.md). -/
def Obligations.OnlyWmemChangesMemory : Prop :=
  ∀ s t : State, s.mem.wf = true → step s = .next t →
    t.mem.size = s.mem.size ∧ t.config = s.config ∧
    ∀ k, t.mem.read k ≠ s.mem.read k →
      ∃ a b w, s.fetch = .ok (.wmem a b) ∧ k = (s.val a).toNat ∧ t.mem.read k = some w ∧
        w.toNat = (s.val b).toNat ∧ w.toNat ≤ 32767

/-- OUTPUT only grows, by one character at its end, and only in an OUT (R30, R184). That a step
from Halted or Faulted answers the same state is the model's choice (notes/assumptions/5.md). -/
def Obligations.OutputGrowsOnlyByOut : Prop :=
  ∀ s t : State, step s = .next t →
    t.output = s.output ∨
    ∃ a c, s.status = .running ∧ s.fetch = .ok (.out a) ∧ c.toNat = (s.val a).toNat % 256 ∧
      t.output = s.output ++ [c]

/-- INPUT loses at most its front character, only in an IN, which receives it; the core never closes the
stream (R30, R183, R184). That a step from Halted or Faulted answers the same state is the model's choice
(notes/assumptions/5.md). -/
def Obligations.InputIsConsumedOnlyByIn : Prop :=
  ∀ s t : State, step s = .next t →
    t.inputClosed = s.inputClosed ∧
    (t.input = s.input ∨
      ∃ c d, s.status = .running ∧ s.fetch = .ok (.inp (.reg d)) ∧ s.input = c :: t.input ∧
        (t.reg d).toNat = c.toNat)

/-- How each instruction leaves `pc` (the table of R24; P + 1 after HALT is the spec's decision D15). -/
def Obligations.NextPcFollowsTheTable : Prop :=
  ∀ (i : Instr) (s t : State), s.status = .running → exec i s = .next t →
    if t.status = .faulted then t.pc = s.pc
    else match i with
      | .halt | .noop => PcPlus 1 s t
      | .push _ | .pop _ | .out _ => PcPlus 2 s t
      | .inp _ => if s.input = [] then t.pc = s.pc else PcPlus 2 s t
      | .set _ _ | .not _ _ | .rmem _ _ | .wmem _ _ => PcPlus 3 s t
      | .eq _ _ _ | .gt _ _ _ | .add _ _ _ | .mult _ _ _ | .mod _ _ _ | .and _ _ _ | .or _ _ _ =>
        PcPlus 4 s t
      | .jmp a => t.pc.toNat = (s.val a).toNat
      | .jt a b => if (s.val a).toNat ≠ 0 then t.pc.toNat = (s.val b).toNat else PcPlus 3 s t
      | .jf a b => if (s.val a).toNat = 0 then t.pc.toNat = (s.val b).toNat else PcPlus 3 s t
      | .call a => t.pc.toNat = (s.val a).toNat
      | .ret => s.stack.getLast? = some t.pc

/-- A target at or past `MEM_SIZE` is no fault of the instruction that goes there: JMP, a taken JT, a taken JF,
CALL (its push included) and RET commit, and the next step faults at its opcode fetch, with that address and no
opcode; the same next step follows any instruction that leaves `pc` outside memory (R143 (d), R206 (1), R25;
the moment is the spec's decision D8, and what FAULT records D10 and D12). -/
def Obligations.BadTargetFaultsAtTheNextFetch : Prop :=
  (∀ (a : Operand) (s : State), s.status = .running → s.mem.size ≤ (s.val a).toNat →
    CommitsThenFaultsAt (s.val a).toNat (.jmp a) s ∧
    (s.HasRoom → CommitsThenFaultsAt (s.val a).toNat (.call a) s ∧
      ∃ t, exec (.call a) s = .next t ∧ t.stack = s.stack ++ [s.pc + 2])) ∧
  (∀ (a b : Operand) (s : State), s.status = .running → s.mem.size ≤ (s.val b).toNat →
    ((s.val a).toNat ≠ 0 → CommitsThenFaultsAt (s.val b).toNat (.jt a b) s) ∧
    ((s.val a).toNat = 0 → CommitsThenFaultsAt (s.val b).toNat (.jf a b) s)) ∧
  (∀ (s : State) (l : List Word) (w : Word), s.status = .running → s.stack = l ++ [w] →
    s.mem.size ≤ w.toNat → CommitsThenFaultsAt w.toNat .ret s) ∧
  (∀ (i : Instr) (s t : State), s.mem.wf = true → exec i s = .next t → t.status = .running →
    s.mem.size ≤ t.pc.toNat →
    ∃ u, step t = .next u ∧ FaultEntry .addressOutOfRange none t.pc.toNat t u)

/-- A word WMEM stored is the word every later fetch of that cell gets, as opcode or as operand (R63). -/
def Obligations.StoredWordIsTheNextFetched : Prop :=
  ∀ (a b : Operand) (s t : State) (p : Word) (k : Nat), s.mem.wf = true →
    (s.val a).toNat < s.mem.size → exec (.wmem a b) s = .next t →
    k < 4 → p.toNat + k = (s.val a).toNat →
    ∃ w, (t.setPc p).fetchWindow[k]? = some w ∧ w.toNat = (s.val b).toNat

/-- Two memories in canonical form that read alike at every address are equal data. -/
def Obligations.CanonicalMemoryIsDeterminedByItsReads : Prop :=
  ∀ m n : Memory, m.wf = true → n.wf = true → (∀ k, m.read k = n.read k) → m = n

/-! ### Instructions: HALT, NOOP -/

/-- HALT (R110): STATUS becomes Halted and `pc` P + 1 (the spec's decision D15); nothing else changes. -/
def Obligations.HaltEndsTheRun : Prop :=
  encode .halt = [0] ∧
  ∀ s : State, ∃ t, exec .halt s = .next t ∧ t.status = .halted ∧ PcPlus 1 s t ∧
    t.fault = s.fault ∧ t.config = s.config ∧ SameRegs s t ∧ SameMem s t ∧ SameStack s t ∧ SameChannels s t

/-- NOOP (R111): only `pc` advances. -/
def Obligations.NoopOnlyAdvances : Prop :=
  ∀ s : State, ∃ t, exec .noop s = .next t ∧ PcPlus 1 s t ∧ OnlyPc s t

/-! ### SET, PUSH, POP -/

/-- SET (R120): the register gets the literal, or what the other register held. -/
def Obligations.SetCopiesAValue : Prop :=
  (∀ (d : RegIdx) (b : Operand) (s : State), ∃ t, exec (.set (.reg d) b) s = .next t ∧
    RegCommit d (s.val b).toNat 3 s t ∧
    (∀ v, b = .lit v → t.reg d = v) ∧ (∀ r, b = .reg r → t.reg d = s.reg r)) ∧
  (∀ (v : Value) (b : Operand) (s : State), ∃ t, exec (.set (.lit v) b) s = .next t ∧
    FaultedAs .invalidWriteTarget t)

/-- PUSH (R121): the stack grows by one entry holding the value. The stack of the hardware is unbounded; a
finite one has room here (the other case is FullFiniteStackRefusesPushAndCall). -/
def Obligations.PushAppendsTheValue : Prop :=
  (∀ (a : Operand) (s : State), s.HasRoom → ∃ t, exec (.push a) s = .next t ∧
    (∃ w, t.stack = s.stack ++ [w] ∧ w.toNat = (s.val a).toNat) ∧ PcPlus 2 s t ∧
    SameRegs s t ∧ SameMem s t ∧ SameChannels s t ∧ SameRun s t)

/-- POP (R122): the last entry is removed and its low 15 bits go to the register (the write port is the
spec's decision D4); StackUnderflow on an empty stack; a literal destination faults before the stack is
looked at. -/
def Obligations.PopTakesTheLastEntry : Prop :=
  (∀ a, encode (.pop a) = [3, a.encode]) ∧
  (∀ (d : RegIdx) (s : State) (l : List Word) (w : Word), s.stack = l ++ [w] →
    ∃ t, exec (.pop (.reg d)) s = .next t ∧ WritesReg d (w.toNat % 32768) s t ∧ t.stack = l ∧
      PcPlus 2 s t ∧ SameMem s t ∧ SameChannels s t ∧ SameRun s t) ∧
  (∀ (d : RegIdx) (s : State), s.stack = [] →
    ∃ t, exec (.pop (.reg d)) s = .next t ∧ FaultedAs .stackUnderflow t) ∧
  (∀ (v : Value) (s : State), ∃ t, exec (.pop (.lit v)) s = .next t ∧ FaultedAs .invalidWriteTarget t)

/-- PUSH and CALL on a full finite stack are refused, neither a fault nor a wrap (R28, U4; the spec's
decision D6). -/
def Obligations.FullFiniteStackRefusesPushAndCall : Prop :=
  ∀ (a : Operand) (s : State) (n : Nat), s.config.stackDepth = some n → n ≤ s.stack.length →
    exec (.push a) s = .refused .stackFull ∧ exec (.call a) s = .refused .stackFull

/-- The document's round trip: PUSH then POP with nothing between returns the value and the stack as it was
(R122, X3). -/
def Obligations.PushThenPopReturnsTheValue : Prop :=
  ∀ (a : Operand) (d : RegIdx) (s : State), s.HasRoom →
    ∃ t u, exec (.push a) s = .next t ∧ exec (.pop (.reg d)) t = .next u ∧
      u.reg d = s.val a ∧ u.stack = s.stack ∧ (∀ r, r ≠ d → u.reg r = s.reg r) ∧ SameMem s u

/-! ### EQ, GT -/

/-- EQ (R130): 1 if the values are equal, else 0. -/
def Obligations.EqComparesForEquality : Prop :=
  (∀ (d : RegIdx) (b c : Operand) (s : State), ∃ t, exec (.eq (.reg d) b c) s = .next t ∧
    RegCommit d (if (s.val b).toNat = (s.val c).toNat then 1 else 0) 4 s t) ∧
  (∀ (v : Value) (b c : Operand) (s : State), ∃ t, exec (.eq (.lit v) b c) s = .next t ∧
    FaultedAs .invalidWriteTarget t)

/-- GT (R131): 1 if the first value is greater, unsigned, else 0. -/
def Obligations.GtComparesUnsigned : Prop :=
  (∀ (d : RegIdx) (b c : Operand) (s : State), ∃ t, exec (.gt (.reg d) b c) s = .next t ∧
    RegCommit d (if (s.val b).toNat > (s.val c).toNat then 1 else 0) 4 s t) ∧
  (∀ (v : Value) (b c : Operand) (s : State), ∃ t, exec (.gt (.lit v) b c) s = .next t ∧
    FaultedAs .invalidWriteTarget t)

/-! ### JMP, JT, JF -/

/-- JMP (R140): `pc` becomes the value. -/
def Obligations.JmpGoesToTheValue : Prop :=
  (∀ (a : Operand) (s : State), ∃ t, exec (.jmp a) s = .next t ∧
    t.pc.toNat = (s.val a).toNat ∧ OnlyPc s t)

/-- JT (R141): jumps on any value but 0. -/
def Obligations.JtJumpsOnNonZero : Prop :=
  (∀ (a b : Operand) (s : State), (s.val a).toNat ≠ 0 → ∃ t, exec (.jt a b) s = .next t ∧
    t.pc.toNat = (s.val b).toNat ∧ OnlyPc s t) ∧
  (∀ (a b : Operand) (s : State), (s.val a).toNat = 0 → ∃ t, exec (.jt a b) s = .next t ∧
    PcPlus 3 s t ∧ OnlyPc s t)

/-- JF (R142): jumps on 0; for the same operands exactly one of JT and JF takes the jump, the other
advances. -/
def Obligations.JfJumpsOnZero : Prop :=
  (∀ (a b : Operand) (s : State), (s.val a).toNat = 0 → ∃ t, exec (.jf a b) s = .next t ∧
    t.pc.toNat = (s.val b).toNat ∧ OnlyPc s t) ∧
  (∀ (a b : Operand) (s : State), (s.val a).toNat ≠ 0 → ∃ t, exec (.jf a b) s = .next t ∧
    PcPlus 3 s t ∧ OnlyPc s t) ∧
  (∀ (a b : Operand) (s : State), ∃ t u, exec (.jt a b) s = .next t ∧ exec (.jf a b) s = .next u ∧
    ((t.pc.toNat = (s.val b).toNat ∧ PcPlus 3 s u) ∨ (PcPlus 3 s t ∧ u.pc.toNat = (s.val b).toNat)))

/-! ### ADD, MULT, MOD, AND, OR, NOT -/

/-- ADD (R150): the exact sum modulo 32768. -/
def Obligations.AddIsTheSumModulo32768 : Prop :=
  (∀ a b c, encode (.add a b c) = [9, a.encode, b.encode, c.encode]) ∧
  (∀ (d : RegIdx) (b c : Operand) (s : State), ∃ t, exec (.add (.reg d) b c) s = .next t ∧
    RegCommit d (((s.val b).toNat + (s.val c).toNat) % 32768) 4 s t) ∧
  (∀ (v : Value) (b c : Operand) (s : State), ∃ t, exec (.add (.lit v) b c) s = .next t ∧
    FaultedAs .invalidWriteTarget t)

/-- MULT (R151): the exact product modulo 32768. -/
def Obligations.MultIsTheProductModulo32768 : Prop :=
  (∀ (d : RegIdx) (b c : Operand) (s : State), ∃ t, exec (.mult (.reg d) b c) s = .next t ∧
    RegCommit d (((s.val b).toNat * (s.val c).toNat) % 32768) 4 s t) ∧
  (∀ (v : Value) (b c : Operand) (s : State), ∃ t, exec (.mult (.lit v) b c) s = .next t ∧
    FaultedAs .invalidWriteTarget t)

/-- MOD (R152): the remainder of unsigned division; DivisionByZero where the divisor is 0,
whatever the dividend, and the register is not written. -/
def Obligations.ModIsTheRemainder : Prop :=
  (∀ a b c, encode (.mod a b c) = [11, a.encode, b.encode, c.encode]) ∧
  (∀ (d : RegIdx) (b c : Operand) (s : State), (s.val c).toNat ≠ 0 →
    ∃ t, exec (.mod (.reg d) b c) s = .next t ∧
      RegCommit d ((s.val b).toNat % (s.val c).toNat) 4 s t) ∧
  (∀ (d : RegIdx) (b c : Operand) (s : State), (s.val c).toNat = 0 →
    ∃ t, exec (.mod (.reg d) b c) s = .next t ∧ FaultedAs .divisionByZero t ∧ SameRegs s t) ∧
  (∀ (v : Value) (b c : Operand) (s : State), ∃ t, exec (.mod (.lit v) b c) s = .next t ∧
    FaultedAs .invalidWriteTarget t)

/-- AND (R153): bit by bit. -/
def Obligations.AndIsBitwise : Prop :=
  (∀ (d : RegIdx) (b c : Operand) (s : State), ∃ t, exec (.and (.reg d) b c) s = .next t ∧
    RegCommit d ((s.val b).toNat &&& (s.val c).toNat) 4 s t ∧
    ∀ k, (t.reg d).getLsbD k = ((s.val b).getLsbD k && (s.val c).getLsbD k)) ∧
  (∀ (v : Value) (b c : Operand) (s : State), ∃ t, exec (.and (.lit v) b c) s = .next t ∧
    FaultedAs .invalidWriteTarget t)

/-- OR (R154): bit by bit. -/
def Obligations.OrIsBitwise : Prop :=
  (∀ (d : RegIdx) (b c : Operand) (s : State), ∃ t, exec (.or (.reg d) b c) s = .next t ∧
    RegCommit d ((s.val b).toNat ||| (s.val c).toNat) 4 s t ∧
    ∀ k, (t.reg d).getLsbD k = ((s.val b).getLsbD k || (s.val c).getLsbD k)) ∧
  (∀ (v : Value) (b c : Operand) (s : State), ∃ t, exec (.or (.lit v) b c) s = .next t ∧
    FaultedAs .invalidWriteTarget t)

/-- NOT (R155): each of the 15 bits inverted, which is 32767 minus the value. -/
def Obligations.NotInvertsFifteenBits : Prop :=
  (∀ (d : RegIdx) (b : Operand) (s : State), ∃ t, exec (.not (.reg d) b) s = .next t ∧
    RegCommit d (32767 - (s.val b).toNat) 3 s t ∧
    ∀ k, k < 15 → (t.reg d).getLsbD k = !(s.val b).getLsbD k) ∧
  (∀ (v : Value) (b : Operand) (s : State), ∃ t, exec (.not (.lit v) b) s = .next t ∧
    FaultedAs .invalidWriteTarget t)

/-- ADD and MULT, and the ALU operations they use, compute in the ring of the integers modulo 32768: each is
the exact natural number reduced; both are commutative and associative, 0 and 1 are neutral, NOT x + 1 is the
negation of x, and MULT distributes over ADD (R150, R151, R155, R156 (c); that the laws beyond commutative and
associative hold is the spec's own derivation). -/
def Obligations.AddAndMultFormARing : Prop :=
  (∀ a b, (aluAdd a b).toNat = (a.toNat + b.toNat) % 32768) ∧
  (∀ a b, (aluMult a b).toNat = (a.toNat * b.toNat) % 32768) ∧
  (∀ (d : RegIdx) (b c : Operand) (s t : State), exec (.add (.reg d) b c) s = .next t →
    t.reg d = aluAdd (s.val b) (s.val c)) ∧
  (∀ (d : RegIdx) (b c : Operand) (s t : State), exec (.mult (.reg d) b c) s = .next t →
    t.reg d = aluMult (s.val b) (s.val c)) ∧
  (∀ a b, aluAdd a b = aluAdd b a) ∧ (∀ a b c, aluAdd (aluAdd a b) c = aluAdd a (aluAdd b c)) ∧
  (∀ a b, aluMult a b = aluMult b a) ∧ (∀ a b c, aluMult (aluMult a b) c = aluMult a (aluMult b c)) ∧
  (∀ a, aluAdd a 0 = a) ∧ (∀ a, aluMult a 1 = a) ∧ (∀ a, aluAdd a (aluAdd (aluNot a) 1) = 0) ∧
  (∀ a b c, aluMult a (aluAdd b c) = aluAdd (aluMult a b) (aluMult a c))

/-! ### RMEM, WMEM -/

/-- RMEM (R160): the low 15 bits of the cell's word (the spec's decision D4); AddressOutOfRange where the
address is at or past the end; a refusal of a word above 32767 only under `RMEM_HIGH` = refuse. -/
def Obligations.RmemLoadsTheCell : Prop :=
  (∀ (d : RegIdx) (b : Operand) (s : State) (w : Word), s.mem.read (s.val b).toNat = some w →
    (s.config.rmemHigh = .truncate ∨ w.toNat ≤ 32767) →
    ∃ t, exec (.rmem (.reg d) b) s = .next t ∧ RegCommit d (w.toNat % 32768) 3 s t) ∧
  (∀ (d : RegIdx) (b : Operand) (s : State) (w : Word), s.mem.read (s.val b).toNat = some w →
    s.config.rmemHigh = .refuse → 32767 < w.toNat →
    exec (.rmem (.reg d) b) s = .refused .rmemHigh) ∧
  (∀ (d : RegIdx) (b : Operand) (s : State), s.mem.size ≤ (s.val b).toNat →
    ∃ t, exec (.rmem (.reg d) b) s = .next t ∧ FaultedAs .addressOutOfRange t ∧ SameRegs s t) ∧
  (∀ (v : Value) (b : Operand) (s : State), ∃ t, exec (.rmem (.lit v) b) s = .next t ∧
    FaultedAs .invalidWriteTarget t)

/-- WMEM (R161): the cell at the address gets the value with bit 15 clear, every other cell stays;
AddressOutOfRange where the address is at or past the end, and nothing is written. -/
def Obligations.WmemStoresTheValue : Prop :=
  (∀ (a b : Operand) (s : State), s.mem.wf = true → (s.val a).toNat < s.mem.size →
    ∃ t, exec (.wmem a b) s = .next t ∧
      (∃ w, t.mem.read (s.val a).toNat = some w ∧ w.toNat = (s.val b).toNat) ∧
      (∀ k, k ≠ (s.val a).toNat → t.mem.read k = s.mem.read k) ∧ t.mem.size = s.mem.size ∧
      PcPlus 3 s t ∧ SameRegs s t ∧ SameStack s t ∧ SameChannels s t ∧ SameRun s t) ∧
  (∀ (a b : Operand) (s : State), s.mem.size ≤ (s.val a).toNat →
    ∃ t, exec (.wmem a b) s = .next t ∧ FaultedAs .addressOutOfRange t ∧ SameMem s t)

/-! ### CALL, RET -/

/-- CALL (R170): P + 2 is pushed, all 16 bits of it (the spec's decision D5), and `pc` becomes the value. A
finite stack has room here (the other case is FullFiniteStackRefusesPushAndCall). -/
def Obligations.CallPushesTheReturnAddress : Prop :=
  (∀ (a : Operand) (s : State), s.HasRoom → ∃ t, exec (.call a) s = .next t ∧
    t.stack = s.stack ++ [s.pc + 2] ∧ t.pc.toNat = (s.val a).toNat ∧
    SameRegs s t ∧ SameMem s t ∧ SameChannels s t ∧ SameRun s t)

/-- RET (R171): `pc` becomes the last entry, all 16 bits; StackUnderflow, never a normal end, on an empty
stack. -/
def Obligations.RetPopsTheProgramCounter : Prop :=
  (∀ (s : State) (l : List Word) (w : Word), s.stack = l ++ [w] →
    ∃ t, exec .ret s = .next t ∧ t.pc = w ∧ t.stack = l ∧
      SameRegs s t ∧ SameMem s t ∧ SameChannels s t ∧ SameRun s t) ∧
  (∀ s : State, s.stack = [] → ∃ t, exec .ret s = .next t ∧ FaultedAs .stackUnderflow t)

/-- The document's property: CALL then RET resumes at P + 2 with the stack as it was (X4, R170, R171). -/
def Obligations.CallThenRetResumesAfterTheCall : Prop :=
  ∀ (a : Operand) (s : State), s.HasRoom →
    ∃ t u, exec (.call a) s = .next t ∧ exec .ret t = .next u ∧
      u.pc = s.pc + 2 ∧ u.stack = s.stack ∧ SameRegs s u ∧ SameMem s u

/-! ### OUT, IN -/

/-- OUT (R180): the low 8 bits of the value go to the output as one character. That every OUT completes rests on
the sink that is always ready, the spec's decision D13 (R182, notes/assumptions/12.md). -/
def Obligations.OutEmitsTheLowByte : Prop :=
  (∀ a, encode (.out a) = [19, a.encode]) ∧
  (∀ (a : Operand) (s : State), ∃ t, exec (.out a) s = .next t ∧
    (∃ c, t.output = s.output ++ [c] ∧ c.toNat = (s.val a).toNat % 256) ∧ PcPlus 2 s t ∧
    SameRegs s t ∧ SameMem s t ∧ SameStack s t ∧
    t.input = s.input ∧ t.inputClosed = s.inputClosed ∧ SameRun s t)

/-- IN (R181, R183): a character available is taken and its code goes to the register; none and open holds,
which changes nothing; none and closed is InputExhausted; a literal destination faults and takes nothing
(the three conditions and when the channel is looked at are the spec's decision D14). -/
def Obligations.InTakesHoldsOrFaults : Prop :=
  (∀ (d : RegIdx) (s : State) (c : Chr) (cs : List Chr), s.input = c :: cs →
    ∃ t, exec (.inp (.reg d)) s = .next t ∧ WritesReg d c.toNat s t ∧ t.input = cs ∧ PcPlus 2 s t ∧
      SameMem s t ∧ SameStack s t ∧ t.output = s.output ∧ t.inputClosed = s.inputClosed ∧ SameRun s t) ∧
  (∀ (d : RegIdx) (s : State), s.input = [] → s.inputClosed = false →
    exec (.inp (.reg d)) s = .next s) ∧
  (∀ (d : RegIdx) (s : State), s.input = [] → s.inputClosed = true →
    ∃ t, exec (.inp (.reg d)) s = .next t ∧ FaultedAs .inputExhausted t) ∧
  (∀ (v : Value) (s : State), ∃ t, exec (.inp (.lit v)) s = .next t ∧
    FaultedAs .invalidWriteTarget t ∧ t.input = s.input)

/-- A holding IN has changed nothing; a character from the host makes that same IN commit, and closing the
stream makes it fault (R181, R214, R248). -/
def Obligations.HeldInEndsWhenTheHostActs : Prop :=
  ∀ (s : State) (d : RegIdx), s.status = .running → s.fetch = .ok (.inp (.reg d)) → s.input = [] →
    s.inputClosed = false →
    step s = .next s ∧
    (∀ c, ∃ t, step (s.supplyChar c) = .next t ∧ (t.reg d).toNat = c.toNat ∧ t.input = [] ∧ PcPlus 2 s t) ∧
    (∃ t, step s.closeInput = .next t ∧ FaultedAs .inputExhausted t ∧ t.pc = s.pc)
end

