-- ==== Sys2Proof/Laws/State.lean ====
section
/-! SUPPORT. One lemma per field per update of State, and the two laws of the register file. -/

namespace Sys2Proof.Machine

variable (s : State)

/-! ### The register file -/

/-- Reading the register just written gives the low 15 bits of what was written (R22). -/
@[simp] theorem reg_writeReg_same (d : RegIdx) (v : Word) : (s.writeReg d v).reg d = low15 v := by
  simp [State.writeReg, State.reg]

/-- Writing one register leaves the others. -/
@[simp] theorem reg_writeReg_other (d r : RegIdx) (v : Word) (h : r ≠ d) :
    (s.writeReg d v).reg r = s.reg r := by
  have h' : d.val ≠ r.val := fun e => h (Fin.ext e.symm)
  simp [State.writeReg, State.reg, h']

/-! ### writeReg -/

@[simp] theorem writeReg_config (d : RegIdx) (v : Word) : (s.writeReg d v).config = s.config := rfl
@[simp] theorem writeReg_pc (d : RegIdx) (v : Word) : (s.writeReg d v).pc = s.pc := rfl
@[simp] theorem writeReg_stack (d : RegIdx) (v : Word) : (s.writeReg d v).stack = s.stack := rfl
@[simp] theorem writeReg_mem (d : RegIdx) (v : Word) : (s.writeReg d v).mem = s.mem := rfl
@[simp] theorem writeReg_status (d : RegIdx) (v : Word) : (s.writeReg d v).status = s.status := rfl
@[simp] theorem writeReg_fault (d : RegIdx) (v : Word) : (s.writeReg d v).fault = s.fault := rfl
@[simp] theorem writeReg_output (d : RegIdx) (v : Word) : (s.writeReg d v).output = s.output := rfl
@[simp] theorem writeReg_input (d : RegIdx) (v : Word) : (s.writeReg d v).input = s.input := rfl
@[simp] theorem writeReg_inputClosed (d : RegIdx) (v : Word) : (s.writeReg d v).inputClosed = s.inputClosed := rfl

/-! ### setPc -/

@[simp] theorem setPc_config (v : Word) : (s.setPc v).config = s.config := rfl
@[simp] theorem setPc_regs (v : Word) : (s.setPc v).regs = s.regs := rfl
@[simp] theorem setPc_pc (v : Word) : (s.setPc v).pc = v := rfl
@[simp] theorem setPc_stack (v : Word) : (s.setPc v).stack = s.stack := rfl
@[simp] theorem setPc_mem (v : Word) : (s.setPc v).mem = s.mem := rfl
@[simp] theorem setPc_status (v : Word) : (s.setPc v).status = s.status := rfl
@[simp] theorem setPc_fault (v : Word) : (s.setPc v).fault = s.fault := rfl
@[simp] theorem setPc_output (v : Word) : (s.setPc v).output = s.output := rfl
@[simp] theorem setPc_input (v : Word) : (s.setPc v).input = s.input := rfl
@[simp] theorem setPc_inputClosed (v : Word) : (s.setPc v).inputClosed = s.inputClosed := rfl
@[simp] theorem setPc_reg (v : Word) (r : RegIdx) : (s.setPc v).reg r = s.reg r := rfl

/-! ### setStack -/

@[simp] theorem setStack_config (v : List Word) : (s.setStack v).config = s.config := rfl
@[simp] theorem setStack_regs (v : List Word) : (s.setStack v).regs = s.regs := rfl
@[simp] theorem setStack_pc (v : List Word) : (s.setStack v).pc = s.pc := rfl
@[simp] theorem setStack_stack (v : List Word) : (s.setStack v).stack = v := rfl
@[simp] theorem setStack_mem (v : List Word) : (s.setStack v).mem = s.mem := rfl
@[simp] theorem setStack_status (v : List Word) : (s.setStack v).status = s.status := rfl
@[simp] theorem setStack_fault (v : List Word) : (s.setStack v).fault = s.fault := rfl
@[simp] theorem setStack_output (v : List Word) : (s.setStack v).output = s.output := rfl
@[simp] theorem setStack_input (v : List Word) : (s.setStack v).input = s.input := rfl
@[simp] theorem setStack_inputClosed (v : List Word) : (s.setStack v).inputClosed = s.inputClosed := rfl
@[simp] theorem setStack_reg (v : List Word) (r : RegIdx) : (s.setStack v).reg r = s.reg r := rfl

/-! ### setMem -/

@[simp] theorem setMem_config (v : Memory) : (s.setMem v).config = s.config := rfl
@[simp] theorem setMem_regs (v : Memory) : (s.setMem v).regs = s.regs := rfl
@[simp] theorem setMem_pc (v : Memory) : (s.setMem v).pc = s.pc := rfl
@[simp] theorem setMem_stack (v : Memory) : (s.setMem v).stack = s.stack := rfl
@[simp] theorem setMem_mem (v : Memory) : (s.setMem v).mem = v := rfl
@[simp] theorem setMem_status (v : Memory) : (s.setMem v).status = s.status := rfl
@[simp] theorem setMem_fault (v : Memory) : (s.setMem v).fault = s.fault := rfl
@[simp] theorem setMem_output (v : Memory) : (s.setMem v).output = s.output := rfl
@[simp] theorem setMem_input (v : Memory) : (s.setMem v).input = s.input := rfl
@[simp] theorem setMem_inputClosed (v : Memory) : (s.setMem v).inputClosed = s.inputClosed := rfl
@[simp] theorem setMem_reg (v : Memory) (r : RegIdx) : (s.setMem v).reg r = s.reg r := rfl

/-! ### setStatus -/

@[simp] theorem setStatus_config (v : Status) : (s.setStatus v).config = s.config := rfl
@[simp] theorem setStatus_regs (v : Status) : (s.setStatus v).regs = s.regs := rfl
@[simp] theorem setStatus_pc (v : Status) : (s.setStatus v).pc = s.pc := rfl
@[simp] theorem setStatus_stack (v : Status) : (s.setStatus v).stack = s.stack := rfl
@[simp] theorem setStatus_mem (v : Status) : (s.setStatus v).mem = s.mem := rfl
@[simp] theorem setStatus_status (v : Status) : (s.setStatus v).status = v := rfl
@[simp] theorem setStatus_fault (v : Status) : (s.setStatus v).fault = s.fault := rfl
@[simp] theorem setStatus_output (v : Status) : (s.setStatus v).output = s.output := rfl
@[simp] theorem setStatus_input (v : Status) : (s.setStatus v).input = s.input := rfl
@[simp] theorem setStatus_inputClosed (v : Status) : (s.setStatus v).inputClosed = s.inputClosed := rfl
@[simp] theorem setStatus_reg (v : Status) (r : RegIdx) : (s.setStatus v).reg r = s.reg r := rfl

/-! ### setFault -/

@[simp] theorem setFault_config (v : FaultRecord) : (s.setFault v).config = s.config := rfl
@[simp] theorem setFault_regs (v : FaultRecord) : (s.setFault v).regs = s.regs := rfl
@[simp] theorem setFault_pc (v : FaultRecord) : (s.setFault v).pc = s.pc := rfl
@[simp] theorem setFault_stack (v : FaultRecord) : (s.setFault v).stack = s.stack := rfl
@[simp] theorem setFault_mem (v : FaultRecord) : (s.setFault v).mem = s.mem := rfl
@[simp] theorem setFault_status (v : FaultRecord) : (s.setFault v).status = s.status := rfl
@[simp] theorem setFault_fault (v : FaultRecord) : (s.setFault v).fault = v := rfl
@[simp] theorem setFault_output (v : FaultRecord) : (s.setFault v).output = s.output := rfl
@[simp] theorem setFault_input (v : FaultRecord) : (s.setFault v).input = s.input := rfl
@[simp] theorem setFault_inputClosed (v : FaultRecord) : (s.setFault v).inputClosed = s.inputClosed := rfl
@[simp] theorem setFault_reg (v : FaultRecord) (r : RegIdx) : (s.setFault v).reg r = s.reg r := rfl

/-! ### setOutput -/

@[simp] theorem setOutput_config (v : List Chr) : (s.setOutput v).config = s.config := rfl
@[simp] theorem setOutput_regs (v : List Chr) : (s.setOutput v).regs = s.regs := rfl
@[simp] theorem setOutput_pc (v : List Chr) : (s.setOutput v).pc = s.pc := rfl
@[simp] theorem setOutput_stack (v : List Chr) : (s.setOutput v).stack = s.stack := rfl
@[simp] theorem setOutput_mem (v : List Chr) : (s.setOutput v).mem = s.mem := rfl
@[simp] theorem setOutput_status (v : List Chr) : (s.setOutput v).status = s.status := rfl
@[simp] theorem setOutput_fault (v : List Chr) : (s.setOutput v).fault = s.fault := rfl
@[simp] theorem setOutput_output (v : List Chr) : (s.setOutput v).output = v := rfl
@[simp] theorem setOutput_input (v : List Chr) : (s.setOutput v).input = s.input := rfl
@[simp] theorem setOutput_inputClosed (v : List Chr) : (s.setOutput v).inputClosed = s.inputClosed := rfl
@[simp] theorem setOutput_reg (v : List Chr) (r : RegIdx) : (s.setOutput v).reg r = s.reg r := rfl

/-! ### setInput -/

@[simp] theorem setInput_config (v : List Chr) : (s.setInput v).config = s.config := rfl
@[simp] theorem setInput_regs (v : List Chr) : (s.setInput v).regs = s.regs := rfl
@[simp] theorem setInput_pc (v : List Chr) : (s.setInput v).pc = s.pc := rfl
@[simp] theorem setInput_stack (v : List Chr) : (s.setInput v).stack = s.stack := rfl
@[simp] theorem setInput_mem (v : List Chr) : (s.setInput v).mem = s.mem := rfl
@[simp] theorem setInput_status (v : List Chr) : (s.setInput v).status = s.status := rfl
@[simp] theorem setInput_fault (v : List Chr) : (s.setInput v).fault = s.fault := rfl
@[simp] theorem setInput_output (v : List Chr) : (s.setInput v).output = s.output := rfl
@[simp] theorem setInput_input (v : List Chr) : (s.setInput v).input = v := rfl
@[simp] theorem setInput_inputClosed (v : List Chr) : (s.setInput v).inputClosed = s.inputClosed := rfl
@[simp] theorem setInput_reg (v : List Chr) (r : RegIdx) : (s.setInput v).reg r = s.reg r := rfl

/-! ### setInputClosed -/

@[simp] theorem setInputClosed_config (v : Bool) : (s.setInputClosed v).config = s.config := rfl
@[simp] theorem setInputClosed_regs (v : Bool) : (s.setInputClosed v).regs = s.regs := rfl
@[simp] theorem setInputClosed_pc (v : Bool) : (s.setInputClosed v).pc = s.pc := rfl
@[simp] theorem setInputClosed_stack (v : Bool) : (s.setInputClosed v).stack = s.stack := rfl
@[simp] theorem setInputClosed_mem (v : Bool) : (s.setInputClosed v).mem = s.mem := rfl
@[simp] theorem setInputClosed_status (v : Bool) : (s.setInputClosed v).status = s.status := rfl
@[simp] theorem setInputClosed_fault (v : Bool) : (s.setInputClosed v).fault = s.fault := rfl
@[simp] theorem setInputClosed_output (v : Bool) : (s.setInputClosed v).output = s.output := rfl
@[simp] theorem setInputClosed_input (v : Bool) : (s.setInputClosed v).input = s.input := rfl
@[simp] theorem setInputClosed_inputClosed (v : Bool) : (s.setInputClosed v).inputClosed = v := rfl
@[simp] theorem setInputClosed_reg (v : Bool) (r : RegIdx) : (s.setInputClosed v).reg r = s.reg r := rfl

/-! ### advance -/

@[simp] theorem advance_config (n : Nat) : (s.advance n).config = s.config := rfl
@[simp] theorem advance_regs (n : Nat) : (s.advance n).regs = s.regs := rfl
@[simp] theorem advance_pc (n : Nat) : (s.advance n).pc = s.nextPc n := rfl
@[simp] theorem advance_stack (n : Nat) : (s.advance n).stack = s.stack := rfl
@[simp] theorem advance_mem (n : Nat) : (s.advance n).mem = s.mem := rfl
@[simp] theorem advance_status (n : Nat) : (s.advance n).status = s.status := rfl
@[simp] theorem advance_fault (n : Nat) : (s.advance n).fault = s.fault := rfl
@[simp] theorem advance_output (n : Nat) : (s.advance n).output = s.output := rfl
@[simp] theorem advance_input (n : Nat) : (s.advance n).input = s.input := rfl
@[simp] theorem advance_inputClosed (n : Nat) : (s.advance n).inputClosed = s.inputClosed := rfl
@[simp] theorem advance_reg (n : Nat) (r : RegIdx) : (s.advance n).reg r = s.reg r := rfl

/-! ### push -/

@[simp] theorem push_config (v : Word) : (s.push v).config = s.config := rfl
@[simp] theorem push_regs (v : Word) : (s.push v).regs = s.regs := rfl
@[simp] theorem push_pc (v : Word) : (s.push v).pc = s.pc := rfl
@[simp] theorem push_stack (v : Word) : (s.push v).stack = s.stack ++ [v] := rfl
@[simp] theorem push_mem (v : Word) : (s.push v).mem = s.mem := rfl
@[simp] theorem push_status (v : Word) : (s.push v).status = s.status := rfl
@[simp] theorem push_fault (v : Word) : (s.push v).fault = s.fault := rfl
@[simp] theorem push_output (v : Word) : (s.push v).output = s.output := rfl
@[simp] theorem push_input (v : Word) : (s.push v).input = s.input := rfl
@[simp] theorem push_inputClosed (v : Word) : (s.push v).inputClosed = s.inputClosed := rfl
@[simp] theorem push_reg (v : Word) (r : RegIdx) : (s.push v).reg r = s.reg r := rfl

/-! ### outChar -/

@[simp] theorem outChar_config (c : Chr) : (s.outChar c).config = s.config := rfl
@[simp] theorem outChar_regs (c : Chr) : (s.outChar c).regs = s.regs := rfl
@[simp] theorem outChar_pc (c : Chr) : (s.outChar c).pc = s.pc := rfl
@[simp] theorem outChar_stack (c : Chr) : (s.outChar c).stack = s.stack := rfl
@[simp] theorem outChar_mem (c : Chr) : (s.outChar c).mem = s.mem := rfl
@[simp] theorem outChar_status (c : Chr) : (s.outChar c).status = s.status := rfl
@[simp] theorem outChar_fault (c : Chr) : (s.outChar c).fault = s.fault := rfl
@[simp] theorem outChar_output (c : Chr) : (s.outChar c).output = s.output ++ [c] := rfl
@[simp] theorem outChar_input (c : Chr) : (s.outChar c).input = s.input := rfl
@[simp] theorem outChar_inputClosed (c : Chr) : (s.outChar c).inputClosed = s.inputClosed := rfl
@[simp] theorem outChar_reg (c : Chr) (r : RegIdx) : (s.outChar c).reg r = s.reg r := rfl

/-! ### takeFault -/

@[simp] theorem takeFault_config (k : FaultKind) (op : Option Word) (info : Word) : (s.takeFault k op info).config = s.config := rfl
@[simp] theorem takeFault_regs (k : FaultKind) (op : Option Word) (info : Word) : (s.takeFault k op info).regs = s.regs := rfl
@[simp] theorem takeFault_pc (k : FaultKind) (op : Option Word) (info : Word) : (s.takeFault k op info).pc = s.pc := rfl
@[simp] theorem takeFault_stack (k : FaultKind) (op : Option Word) (info : Word) : (s.takeFault k op info).stack = s.stack := rfl
@[simp] theorem takeFault_mem (k : FaultKind) (op : Option Word) (info : Word) : (s.takeFault k op info).mem = s.mem := rfl
@[simp] theorem takeFault_status (k : FaultKind) (op : Option Word) (info : Word) : (s.takeFault k op info).status = .faulted := rfl
@[simp] theorem takeFault_fault (k : FaultKind) (op : Option Word) (info : Word) :
    (s.takeFault k op info).fault = { kind := k, isp := s.pc, opcodeValid := op.isSome, opcode := op.getD 0, info := info } := rfl
@[simp] theorem takeFault_output (k : FaultKind) (op : Option Word) (info : Word) : (s.takeFault k op info).output = s.output := rfl
@[simp] theorem takeFault_input (k : FaultKind) (op : Option Word) (info : Word) : (s.takeFault k op info).input = s.input := rfl
@[simp] theorem takeFault_inputClosed (k : FaultKind) (op : Option Word) (info : Word) : (s.takeFault k op info).inputClosed = s.inputClosed := rfl
@[simp] theorem takeFault_reg (k : FaultKind) (op : Option Word) (info : Word) (r : RegIdx) : (s.takeFault k op info).reg r = s.reg r := rfl

/-! ### Width changes -/

/-- A value widened and taken back through the write port is itself. -/
@[simp] theorem low15_zext16 (v : Value) : low15 (zext16 v) = v := by
  apply BitVec.eq_of_toNat_eq
  simp [low15, zext16]

/-- `zext_16` keeps the number (R9). -/
@[simp] theorem toNat_zext16 (v : Value) : (zext16 v).toNat = v.toNat := by
  simp [zext16]
  omega

/-- `zext_15` keeps the number (R9). -/
@[simp] theorem toNat_zext15 (c : Chr) : (zext15 c).toNat = c.toNat := by
  simp [zext15]
  omega

/-- The write port reduces modulo 32768 (R22). -/
@[simp] theorem toNat_low15 (w : Word) : (low15 w).toNat = w.toNat % 32768 := by
  simp [low15]

/-- OUT's character is the value modulo 256 (R180). -/
@[simp] theorem toNat_low8 (v : Value) : (low8 v).toNat = v.toNat % 256 := by
  simp [low8]

end Sys2Proof.Machine
end

