-- ==== Sys2Proof/Laws/Decode.lean ====
section
/-! SUPPORT. The small lemmas of the operand decoder and of the opcode table. -/

namespace Sys2Proof

/-- Every operand is read back from its operand word. -/
@[simp] theorem decodeOperand_encode (o : Operand) : decodeOperand o.encode = some o := by
  cases o with
  | lit v =>
    have h : v.toNat ≤ 32767 := by have := v.isLt; omega
    simp [decodeOperand, Operand.encode, h, Machine.low15_zext16]
  | reg r => revert r; decide

/-- A word the operand decoder reads is the operand word of what it reads (R83). -/
theorem encode_of_decodeOperand {w : Word} {o : Operand} (h : decodeOperand w = some o) :
    o.encode = w := by
  unfold decodeOperand at h
  split at h
  · cases h
    apply BitVec.eq_of_toNat_eq
    simp [Operand.encode]
    omega
  · split at h
    · cases h
      apply BitVec.eq_of_toNat_eq
      have := w.isLt
      simp [Operand.encode]
      omega
    · cases h

/-- Exactly the words 32776 and above are no operand (R83, R90). -/
theorem decodeOperand_none {w : Word} : decodeOperand w = none ↔ 32776 ≤ w.toNat := by
  unfold decodeOperand
  split
  · simp; omega
  · split <;> simp <;> omega

/-- Fetching and classifying an encoded operand takes its one word. -/
@[simp] theorem takeOperand_encode (op : Word) (k : Nat) (o : Operand) (ws : List Word) :
    takeOperand op k (o.encode :: ws) = .ok (o, ws) := by
  simp [takeOperand]

/-- What `takeOperand` can answer with a success: the first word is the operand's word. -/
theorem takeOperand_ok {op : Word} {k : Nat} {ws rest : List Word} {o : Operand}
    (h : takeOperand op k ws = .ok (o, rest)) : ws = o.encode :: rest := by
  cases ws with
  | nil => simp [takeOperand] at h
  | cons w ws =>
    cases hd : decodeOperand w with
    | none => simp [takeOperand, hd] at h
    | some o' =>
      simp only [takeOperand, hd, Except.ok.injEq, Prod.mk.injEq] at h
      rw [← h.1, ← h.2, encode_of_decodeOperand hd]

/-- What stops `takeOperand`: no word, or a first word that is no operand. -/
theorem takeOperand_error {op : Word} {k : Nat} {ws : List Word} {e : DecodeError}
    (h : takeOperand op k ws = .error e) :
    (ws = [] ∧ e = .operandMissing op k) ∨
    (∃ w rest, ws = w :: rest ∧ decodeOperand w = none ∧ e = .invalidOperand op w) := by
  cases ws with
  | nil =>
    simp only [takeOperand, Except.error.injEq] at h
    exact .inl ⟨rfl, h.symm⟩
  | cons w ws =>
    cases hd : decodeOperand w with
    | none =>
      simp only [takeOperand, hd, Except.error.injEq] at h
      exact .inr ⟨w, ws, rfl, hd, h.symm⟩
    | some o => simp [takeOperand, hd] at h

/-- Everything a one-operand shape can decode to. -/
theorem decodeShape_one_ok {op : Word} {ws rest : List Word} {f : Operand → Instr} {i : Instr}
    (h : decodeShape op ws (.one f) = .ok (i, rest)) : ∃ a, i = f a ∧ ws = a.encode :: rest := by
  cases ha : takeOperand op 0 ws with
  | error e => simp [decodeShape, ha] at h
  | ok p =>
    simp only [decodeShape, ha, Except.ok.injEq, Prod.mk.injEq] at h
    exact ⟨p.1, h.1.symm, by rw [takeOperand_ok ha, h.2]⟩

/-- Everything a two-operand shape can decode to. -/
theorem decodeShape_two_ok {op : Word} {ws rest : List Word} {f : Operand → Operand → Instr} {i : Instr}
    (h : decodeShape op ws (.two f) = .ok (i, rest)) :
    ∃ a b, i = f a b ∧ ws = a.encode :: b.encode :: rest := by
  cases ha : takeOperand op 0 ws with
  | error e => simp [decodeShape, ha] at h
  | ok p =>
    cases hb : takeOperand op 1 p.2 with
    | error e => simp [decodeShape, ha, hb] at h
    | ok q =>
      simp only [decodeShape, ha, hb, Except.ok.injEq, Prod.mk.injEq] at h
      exact ⟨p.1, q.1, h.1.symm, by rw [takeOperand_ok ha, takeOperand_ok hb, h.2]⟩

/-- Everything a three-operand shape can decode to. -/
theorem decodeShape_three_ok {op : Word} {ws rest : List Word}
    {f : Operand → Operand → Operand → Instr} {i : Instr}
    (h : decodeShape op ws (.three f) = .ok (i, rest)) :
    ∃ a b c, i = f a b c ∧ ws = a.encode :: b.encode :: c.encode :: rest := by
  cases ha : takeOperand op 0 ws with
  | error e => simp [decodeShape, ha] at h
  | ok p =>
    cases hb : takeOperand op 1 p.2 with
    | error e => simp [decodeShape, ha, hb] at h
    | ok q =>
      cases hc : takeOperand op 2 q.2 with
      | error e => simp [decodeShape, ha, hb, hc] at h
      | ok r =>
        simp only [decodeShape, ha, hb, hc, Except.ok.injEq, Prod.mk.injEq] at h
        exact ⟨p.1, q.1, r.1, h.1.symm,
          by rw [takeOperand_ok ha, takeOperand_ok hb, takeOperand_ok hc, h.2]⟩

/-- What stops the operands of an instruction: a missing word, or a word that is no operand. -/
theorem decodeShape_error {op : Word} {ws : List Word} {sh : Shape} {e : DecodeError}
    (h : decodeShape op ws sh = .error e) :
    (∃ k, k < 3 ∧ e = .operandMissing op k) ∨
    (∃ w, decodeOperand w = none ∧ e = .invalidOperand op w) := by
  have stop : ∀ {k ws}, k < 3 → takeOperand op k ws = .error e →
      (∃ k, k < 3 ∧ e = .operandMissing op k) ∨
      (∃ w, decodeOperand w = none ∧ e = .invalidOperand op w) := by
    intro k ws hk hs
    obtain ⟨-, he⟩ | ⟨w, -, -, hd, he⟩ := takeOperand_error hs
    · exact .inl ⟨k, hk, he⟩
    · exact .inr ⟨w, hd, he⟩
  cases sh with
  | zero i => simp [decodeShape] at h
  | one f =>
    cases ha : takeOperand op 0 ws with
    | error e' =>
      simp only [decodeShape, ha, Except.error.injEq] at h
      exact stop (by decide) (h ▸ ha)
    | ok p => simp [decodeShape, ha] at h
  | two f =>
    cases ha : takeOperand op 0 ws with
    | error e' =>
      simp only [decodeShape, ha, Except.error.injEq] at h
      exact stop (by decide) (h ▸ ha)
    | ok p =>
      cases hb : takeOperand op 1 p.2 with
      | error e' =>
        simp only [decodeShape, ha, hb, Except.error.injEq] at h
        exact stop (by decide) (h ▸ hb)
      | ok q => simp [decodeShape, ha, hb] at h
  | three f =>
    cases ha : takeOperand op 0 ws with
    | error e' =>
      simp only [decodeShape, ha, Except.error.injEq] at h
      exact stop (by decide) (h ▸ ha)
    | ok p =>
      cases hb : takeOperand op 1 p.2 with
      | error e' =>
        simp only [decodeShape, ha, hb, Except.error.injEq] at h
        exact stop (by decide) (h ▸ hb)
      | ok q =>
        cases hc : takeOperand op 2 q.2 with
        | error e' =>
          simp only [decodeShape, ha, hb, hc, Except.error.injEq] at h
          exact stop (by decide) (h ▸ hc)
        | ok r => simp [decodeShape, ha, hb, hc] at h

/-- The opcode table has no row past 21 (R81). -/
theorem shapeOf_none {op : Word} : shapeOf op = none ↔ 21 < op.toNat := by
  constructor
  · intro h
    by_contra hc
    have hle : op.toNat ≤ 21 := by omega
    unfold shapeOf at h
    interval_cases hn : op.toNat <;> simp at h
  · intro h
    unfold shapeOf
    split <;> simp_all

end Sys2Proof
end

