-- ==== Sys2Proof/Laws/Memory.lean ====
section
/-! SUPPORT. The laws of memory: read after write, and that every memory operation keeps the canonical
form. -/

namespace Sys2Proof.Machine

/-! ### The listing -/

/-- A listing that starts at `lo` also starts at any lower address. -/
theorem cellsWf_mono {size lo lo' : Nat} {cs : List MemCell} (h : cellsWf size lo cs = true)
    (hle : lo' ≤ lo) : cellsWf size lo' cs = true := by
  cases cs with
  | nil => rfl
  | cons c cs =>
    obtain ⟨a, w⟩ := c
    simp only [cellsWf, Bool.and_eq_true, decide_eq_true_eq] at h ⊢
    exact ⟨⟨⟨by omega, h.1.1.2⟩, h.1.2⟩, h.2⟩

/-- A listing fits in any larger memory. -/
theorem cellsWf_grow {size size' lo : Nat} {cs : List MemCell} (h : cellsWf size lo cs = true)
    (hle : size ≤ size') : cellsWf size' lo cs = true := by
  induction cs generalizing lo with
  | nil => rfl
  | cons c cs ih =>
    obtain ⟨a, w⟩ := c
    simp only [cellsWf, Bool.and_eq_true, decide_eq_true_eq] at h ⊢
    exact ⟨⟨⟨h.1.1.1, by omega⟩, h.1.2⟩, ih h.2⟩

/-- A canonical listing gives 0 below its first address. -/
theorem cellAt_below {size lo k : Nat} {cs : List MemCell} (h : cellsWf size lo cs = true) (hk : k < lo) :
    cellAt cs k = 0 := by
  induction cs generalizing lo with
  | nil => rfl
  | cons c cs ih =>
    obtain ⟨a, w⟩ := c
    simp only [cellsWf, Bool.and_eq_true, decide_eq_true_eq] at h
    rw [cellAt, if_neg (by omega)]
    exact ih h.2 (by omega)

/-- Putting a word keeps the canonical form. -/
theorem cellsWf_putCell {size lo k : Nat} {cs : List MemCell} (v : Word)
    (h : cellsWf size lo cs = true) (hlo : lo ≤ k) (hk : k < size) :
    cellsWf size lo (putCell cs k v) = true := by
  induction cs generalizing lo with
  | nil =>
    unfold putCell
    split <;> simp_all [cellsWf]
  | cons c cs ih =>
    obtain ⟨a, w⟩ := c
    simp only [cellsWf, Bool.and_eq_true, decide_eq_true_eq] at h
    unfold putCell
    split
    · simp only [cellsWf, Bool.and_eq_true, decide_eq_true_eq]
      exact ⟨h.1, ih h.2 (by omega)⟩
    · split
      · subst_vars
        split
        · exact cellsWf_mono h.2 (by omega)
        · simp only [cellsWf, Bool.and_eq_true, decide_eq_true_eq]
          exact ⟨⟨h.1.1, by assumption⟩, h.2⟩
      · split
        · simp only [cellsWf, Bool.and_eq_true, decide_eq_true_eq]
          exact h
        · simp only [cellsWf, Bool.and_eq_true, decide_eq_true_eq]
          exact ⟨⟨⟨hlo, hk⟩, by assumption⟩, ⟨⟨by omega, h.1.1.2⟩, h.1.2⟩, h.2⟩

/-- The cell just written holds the word written. -/
theorem cellAt_putCell_same {size lo k : Nat} {cs : List MemCell} (v : Word)
    (h : cellsWf size lo cs = true) : cellAt (putCell cs k v) k = v := by
  induction cs generalizing lo with
  | nil =>
    unfold putCell
    split <;> simp_all [cellAt]
  | cons c cs ih =>
    obtain ⟨a, w⟩ := c
    simp only [cellsWf, Bool.and_eq_true, decide_eq_true_eq] at h
    unfold putCell
    split
    · rw [cellAt, if_neg (by omega)]
      exact ih h.2
    · split
      · split
        · rw [cellAt_below h.2 (by omega)]
          simp_all
        · simp [cellAt]
      · split
        · rw [cellAt, if_neg (by assumption), cellAt_below h.2 (by omega)]
          simp_all
        · simp [cellAt]

/-- Every other cell holds what it held. -/
theorem cellAt_putCell_other {size lo k j : Nat} {cs : List MemCell} (v : Word)
    (h : cellsWf size lo cs = true) (hj : j ≠ k) : cellAt (putCell cs k v) j = cellAt cs j := by
  induction cs generalizing lo with
  | nil =>
    unfold putCell
    split
    · rfl
    · simp [cellAt, Ne.symm hj]
  | cons c cs ih =>
    obtain ⟨a, w⟩ := c
    simp only [cellsWf, Bool.and_eq_true, decide_eq_true_eq] at h
    unfold putCell
    split
    · simp only [cellAt]
      split
      · rfl
      · exact ih h.2
    · split
      · subst_vars
        split
        · simp only [cellAt]
          rw [if_neg (by omega)]
        · simp only [cellAt]
          rw [if_neg (by omega), if_neg (by omega)]
      · split
        · rfl
        · rw [cellAt, if_neg (by omega)]

/-! ### Read and write -/

/-- A read answers a word exactly at the addresses below `MEM_SIZE` (R52). -/
theorem read_isSome (m : Memory) (k : Nat) : (m.read k).isSome = true ↔ k < m.size := by
  unfold Memory.read
  split <;> simp_all

/-- A read at or past `MEM_SIZE` answers none (R52). -/
theorem read_none (m : Memory) (k : Nat) : m.read k = none ↔ m.size ≤ k := by
  unfold Memory.read
  split <;> simp_all

/-- A write at or past `MEM_SIZE` answers none (R53). -/
theorem write_none (m : Memory) (k : Nat) (v : Word) : m.write k v = none ↔ m.size ≤ k := by
  unfold Memory.write
  split <;> simp_all

/-- Everything a write can do (R53): the address is below `MEM_SIZE`, the same cells exist, and only the
listing of that one cell changes. -/
theorem write_some {m m' : Memory} {k : Nat} {v : Word} (h : m.write k v = some m') :
    k < m.size ∧ m'.size = m.size ∧ m'.cells = putCell m.cells k v := by
  unfold Memory.write at h
  split at h
  · cases h
    exact ⟨by assumption, rfl, rfl⟩
  · cases h

/-- A write keeps the canonical form. -/
theorem write_wf {m m' : Memory} {k : Nat} {v : Word} (hm : m.wf = true) (h : m.write k v = some m') :
    m'.wf = true := by
  obtain ⟨hk, hs, hc⟩ := write_some h
  unfold Memory.wf at *
  rw [hs, hc]
  exact cellsWf_putCell v hm (Nat.zero_le k) hk

/-- A read after a write to the same cell gives the word written (R53). -/
theorem read_write_same {m m' : Memory} {k : Nat} {v : Word} (hm : m.wf = true)
    (h : m.write k v = some m') : m'.read k = some v := by
  obtain ⟨hk, hs, hc⟩ := write_some h
  unfold Memory.read
  rw [hs, if_pos hk, hc, cellAt_putCell_same v hm]

/-- A write leaves every other cell alone (R53). -/
theorem read_write_other {m m' : Memory} {k j : Nat} {v : Word} (hm : m.wf = true)
    (h : m.write k v = some m') (hj : j ≠ k) : m'.read j = m.read j := by
  obtain ⟨-, hs, hc⟩ := write_some h
  unfold Memory.read
  rw [hs, hc, cellAt_putCell_other v hm hj]

/-! ### Images and placing -/

/-- The listing of an image is canonical. -/
theorem cellsWf_imageCells (ws : List Word) (k size : Nat) (h : k + ws.length ≤ size) :
    cellsWf size k (imageCells k ws) = true := by
  induction ws generalizing k with
  | nil => rfl
  | cons w ws ih =>
    have hlen : k + 1 + ws.length ≤ size := by simp at h; omega
    unfold imageCells
    split
    · exact cellsWf_mono (ih (k + 1) hlen) (by omega)
    · simp only [cellsWf, Bool.and_eq_true, decide_eq_true_eq]
      exact ⟨⟨⟨by omega, by omega⟩, by assumption⟩, ih (k + 1) hlen⟩

/-- The memory of an image is canonical. -/
theorem ofImage_wf (ws : List Word) : (Memory.ofImage ws).wf = true :=
  cellsWf_imageCells ws 0 ws.length (by omega)

/-- The listing of an image gives each cell its word. -/
theorem cellAt_imageCells (ws : List Word) (k j : Nat) :
    cellAt (imageCells k ws) (k + j) = ws.getD j 0 := by
  induction ws generalizing k j with
  | nil => simp [imageCells, cellAt]
  | cons w ws ih =>
    have below : cellAt (imageCells (k + 1) ws) k = 0 :=
      cellAt_below (cellsWf_imageCells ws (k + 1) (k + 1 + ws.length) (by omega)) (by omega)
    have later : ∀ j, cellAt (imageCells (k + 1) ws) (k + (j + 1)) = ws.getD j 0 := by
      intro j
      have := ih (k + 1) j
      rwa [show k + 1 + j = k + (j + 1) by omega] at this
    unfold imageCells
    split
    · cases j with
      | zero => simp_all
      | succ j => simpa using later j
    · cases j with
      | zero => simp [cellAt]
      | succ j =>
        rw [cellAt, if_neg (by omega)]
        simpa using later j

/-- The memory of an image reads as the image (R51). -/
theorem read_ofImage (ws : List Word) (k : Nat) : (Memory.ofImage ws).read k = ws[k]? := by
  have h := cellAt_imageCells ws 0 k
  rw [Nat.zero_add] at h
  unfold Memory.read Memory.ofImage
  simp only
  split
  · rw [h]
    simp_all
  · symm
    simp_all

/-- Placing words keeps the canonical form. -/
theorem place_wf (ws : List Word) (m : Memory) (addr : Nat) (hm : m.wf = true) :
    (m.place addr ws).wf = true := by
  induction ws generalizing m addr with
  | nil => exact hm
  | cons w ws ih =>
    unfold Memory.place
    apply ih
    exact cellsWf_putCell w (cellsWf_grow hm (Nat.le_max_left _ _)) (Nat.zero_le _)
      (Nat.lt_of_lt_of_le (Nat.lt_succ_self _) (Nat.le_max_right _ _))

/-- Placing a word keeps the canonical form. -/
theorem wf_placeOne {m : Memory} (addr : Nat) (w : Word) (hm : m.wf = true) :
    Memory.wf { size := max m.size (addr + 1), cells := putCell m.cells addr w } = true :=
  cellsWf_putCell w (cellsWf_grow hm (Nat.le_max_left _ _)) (Nat.zero_le _) (by simp)

/-- Placing words leaves the cells before them as they were. -/
theorem read_place_before (ws : List Word) (m : Memory) (addr j : Nat) (hm : m.wf = true) (hj : j < addr)
    (hs : j < m.size) : (m.place addr ws).read j = m.read j := by
  induction ws generalizing m addr with
  | nil => rfl
  | cons w ws ih =>
    unfold Memory.place
    rw [ih _ (addr + 1) (wf_placeOne addr w hm) (by omega) (by simp; omega)]
    unfold Memory.read
    rw [if_pos (by simp; omega), if_pos hs, cellAt_putCell_other w hm (by omega)]

/-- The words placed are the words read where they were placed. -/
theorem read_place (ws : List Word) (m : Memory) (addr k : Nat) (hm : m.wf = true) (hk : k < ws.length) :
    (m.place addr ws).read (addr + k) = some ws[k] := by
  induction ws generalizing m addr k with
  | nil => simp at hk
  | cons w ws ih =>
    unfold Memory.place
    cases k with
    | zero =>
      rw [read_place_before ws _ (addr + 1) (addr + 0) (wf_placeOne addr w hm) (by omega) (by simp)]
      unfold Memory.read
      rw [if_pos (by simp)]
      simp [cellAt_putCell_same w hm]
    | succ k =>
      have := ih { size := max m.size (addr + 1), cells := putCell m.cells addr w } (addr + 1) k
        (wf_placeOne addr w hm) (by simpa using hk)
      rw [show addr + (k + 1) = addr + 1 + k by omega, this]
      simp

/-! ### The window -/

/-- The words of a window are the words of its cells, up to the end of memory. -/
theorem getElem?_window (m : Memory) (n addr k : Nat) :
    (m.window addr n)[k]? = if k < n then m.read (addr + k) else none := by
  induction n generalizing addr k with
  | zero => simp [Memory.window]
  | succ n ih =>
    unfold Memory.window
    cases hr : m.read addr with
    | none =>
      have : m.size ≤ addr := (read_none m addr).1 hr
      have : m.read (addr + k) = none := (read_none m _).2 (by omega)
      simp [this]
    | some w =>
      cases k with
      | zero => simp [hr]
      | succ k =>
        simp only [List.getElem?_cons_succ, ih]
        rw [show addr + 1 + k = addr + (k + 1) by omega]
        simp

end Sys2Proof.Machine
end

