-- ==== Sys2Proof/Laws/Ops.lean ====
section
/-! SUPPORT. One lemma per shared operation that says once everything it can do. -/

namespace Sys2Proof.Machine

/-! ### Frames of any update that leaves the parts alone -/

/-- Nothing differs in memory where the memory is the same. -/
theorem sameMem_of_eq {s t : State} (h : t.mem = s.mem) : SameMem s t := by
  simp [SameMem, h]

/-! ### Stage 4 -/

/-- Stage 4 passes a register reference on to the rest of the instruction (R85). -/
@[simp] theorem withSlot_reg (i : Instr) (d : RegIdx) (s : State) (rest : RegIdx → Out) :
    withSlot i (.reg d) s rest = rest d := rfl

/-- Stage 4 raises InvalidWriteTarget on a literal (R85). -/
@[simp] theorem withSlot_lit (i : Instr) (v : Value) (s : State) (rest : RegIdx → Out) :
    withSlot i (.lit v) s rest = raise i .invalidWriteTarget (zext16 v) s := rfl

/-- Everything stage 4 can lead to. -/
theorem withSlot_next {i : Instr} {a : Operand} {s t : State} {rest : RegIdx → Out}
    (h : withSlot i a s rest = .next t) :
    (∃ d, a = .reg d ∧ rest d = .next t) ∨
    (∃ v, a = .lit v ∧ t = s.takeFault .invalidWriteTarget (some i.opcode) (zext16 v)) := by
  cases a with
  | reg d => exact .inl ⟨d, rfl, h⟩
  | lit v =>
    refine .inr ⟨v, rfl, ?_⟩
    simp only [withSlot_lit, raise, Host.Outcome.next.injEq] at h
    exact h.symm

/-! ### Fault entry -/

/-- Everything fault entry does (R208). -/
theorem takeFault_entry (s : State) (k : FaultKind) (op : Option Word) (info : Word) :
    FaultEntry k op info.toNat s (s.takeFault k op info) where
  status := rfl
  kind_eq := rfl
  isp := rfl
  valid := rfl
  opcode_eq := rfl
  info_eq := rfl
  pc := rfl
  regs := fun _ => rfl
  mem := sameMem_of_eq rfl
  stack := rfl
  channels := ⟨rfl, rfl, rfl⟩
  config := rfl

/-- Raising is fault entry with the opcode of the instruction. -/
theorem raise_next {i : Instr} {k : FaultKind} {info : Word} {s t : State} (h : raise i k info s = .next t) :
    t = s.takeFault k (some i.opcode) info := by
  simp only [raise, Host.Outcome.next.injEq] at h
  exact h.symm

/-! ### Commit -/

/-- Everything the commit of a register write does. -/
theorem commitReg_commit (d : RegIdx) (v : Word) (n : Nat) (s : State) :
    ∃ t, commitReg d v n s = .next t ∧ RegCommit d (v.toNat % 32768) n s t := by
  refine ⟨_, rfl, ⟨⟨?_, ?_⟩, rfl, sameMem_of_eq rfl, rfl, ⟨rfl, rfl, rfl⟩, ⟨rfl, rfl, rfl⟩⟩⟩
  · simp
  · intro r hr
    simp [hr]

/-- The state a register commit answers. -/
theorem commitReg_next {d : RegIdx} {v : Word} {n : Nat} {s t : State} (h : commitReg d v n s = .next t) :
    t = (s.writeReg d v).advance n := by
  simp only [commitReg, Host.Outcome.next.injEq] at h
  exact h.symm

/-! ### Stack -/

/-- A pop of an empty stack answers none (R28). -/
theorem pop_none {s : State} : s.pop = none ↔ s.stack = [] := by
  cases hl : s.stack.getLast? with
  | none => simp [State.pop, List.getLast?_eq_none_iff.1 hl]
  | some v =>
    have : s.stack ≠ [] := by rintro h; simp [h] at hl
    simp [State.pop, hl, this]

/-- A pop answers the last entry and the stack without it (R28). -/
theorem pop_concat {s : State} {l : List Word} {w : Word} (h : s.stack = l ++ [w]) :
    s.pop = some (w, s.setStack l) := by
  simp [State.pop, h]

/-- Everything a pop can do. -/
theorem pop_some {s s' : State} {w : Word} (h : s.pop = some (w, s')) :
    ∃ l, s.stack = l ++ [w] ∧ s' = s.setStack l := by
  cases hs : s.stack.eq_nil_or_concat with
  | inl h0 => rw [pop_none.2 h0] at h; cases h
  | inr h1 =>
    obtain ⟨l, v, hl⟩ := h1
    rw [List.concat_eq_append] at hl
    rw [pop_concat hl] at h
    simp only [Option.some.injEq, Prod.mk.injEq] at h
    exact ⟨l, by rw [hl, h.1], h.2.symm⟩

/-- A push has room exactly where the stack is not full (R28). -/
theorem stackFull_eq_false {s : State} : s.stackFull = false ↔ s.HasRoom := by
  unfold State.stackFull State.HasRoom
  split <;> simp_all

/-- A load is refused exactly where the word is above 32767 and the parameter refuses it (R7). -/
theorem refusesLoad_eq_true {c : Config} {t : Word} :
    refusesLoad c t = true ↔ c.rmemHigh = .refuse ∧ 32767 < t.toNat := by
  unfold refusesLoad
  split <;> simp_all

/-! ### The input channel -/

/-- A character is available exactly where `INPUT` is not empty (R183). -/
theorem inChannel_cons {s : State} {c : Chr} {cs : List Chr} (h : s.input = c :: cs) :
    s.inChannel = .available c cs := by
  simp [State.inChannel, h]

/-- With no character, the closed mark decides between a hold and exhaustion (R183). -/
theorem inChannel_nil {s : State} (h : s.input = []) :
    s.inChannel = if s.inputClosed then .exhausted else .noneYet := by
  simp [State.inChannel, h]

end Sys2Proof.Machine
end

