-- ==== Sys2Proof/Laws/Exec.lean ====
section
/-! SUPPORT. Everything an instruction can do, said once: the effect relation, that a next state of `exec` is
one of its effects, and when `exec` refuses. -/

namespace Sys2Proof.Machine

/-- The effects of the instructions, one constructor per way an instruction can end in a next state. -/
inductive Effect (s : State) : Instr → State → Prop where
  | badSlot (i : Instr) (v : Value) (h : i.dest = some (.lit v)) :
    Effect s i (s.takeFault .invalidWriteTarget (some i.opcode) (zext16 v))
  | halt : Effect s .halt ((s.setStatus .halted).advance 1)
  | noop : Effect s .noop (s.advance 1)
  | set (d : RegIdx) (b : Operand) :
    Effect s (.set (.reg d) b) ((s.writeReg d (zext16 (s.val b))).advance 3)
  | push (a : Operand) (h : s.stackFull = false) :
    Effect s (.push a) ((s.push (zext16 (s.val a))).advance 2)
  | pop (d : RegIdx) (l : List Word) (w : Word) (h : s.stack = l ++ [w]) :
    Effect s (.pop (.reg d)) (((s.setStack l).writeReg d w).advance 2)
  | popEmpty (d : RegIdx) (h : s.stack = []) :
    Effect s (.pop (.reg d)) (s.takeFault .stackUnderflow (some 3) 0)
  | eq (d : RegIdx) (b c : Operand) :
    Effect s (.eq (.reg d) b c) ((s.writeReg d (zext16 (aluEq (s.val b) (s.val c)))).advance 4)
  | gt (d : RegIdx) (b c : Operand) :
    Effect s (.gt (.reg d) b c) ((s.writeReg d (zext16 (aluGt (s.val b) (s.val c)))).advance 4)
  | add (d : RegIdx) (b c : Operand) :
    Effect s (.add (.reg d) b c) ((s.writeReg d (zext16 (aluAdd (s.val b) (s.val c)))).advance 4)
  | mult (d : RegIdx) (b c : Operand) :
    Effect s (.mult (.reg d) b c) ((s.writeReg d (zext16 (aluMult (s.val b) (s.val c)))).advance 4)
  | and (d : RegIdx) (b c : Operand) :
    Effect s (.and (.reg d) b c) ((s.writeReg d (zext16 (aluAnd (s.val b) (s.val c)))).advance 4)
  | or (d : RegIdx) (b c : Operand) :
    Effect s (.or (.reg d) b c) ((s.writeReg d (zext16 (aluOr (s.val b) (s.val c)))).advance 4)
  | mod (d : RegIdx) (b c : Operand) (r : Value) (h : aluMod (s.val b) (s.val c) = some r) :
    Effect s (.mod (.reg d) b c) ((s.writeReg d (zext16 r)).advance 4)
  | modZero (d : RegIdx) (b c : Operand) (h : (s.val c).toNat = 0) :
    Effect s (.mod (.reg d) b c) (s.takeFault .divisionByZero (some 11) (zext16 (s.val b)))
  | not (d : RegIdx) (b : Operand) :
    Effect s (.not (.reg d) b) ((s.writeReg d (zext16 (aluNot (s.val b)))).advance 3)
  | jmp (a : Operand) : Effect s (.jmp a) (s.setPc (zext16 (s.val a)))
  | jtTaken (a b : Operand) (h : (s.val a).toNat ≠ 0) : Effect s (.jt a b) (s.setPc (zext16 (s.val b)))
  | jtNot (a b : Operand) (h : (s.val a).toNat = 0) : Effect s (.jt a b) (s.advance 3)
  | jfTaken (a b : Operand) (h : (s.val a).toNat = 0) : Effect s (.jf a b) (s.setPc (zext16 (s.val b)))
  | jfNot (a b : Operand) (h : (s.val a).toNat ≠ 0) : Effect s (.jf a b) (s.advance 3)
  | rmem (d : RegIdx) (b : Operand) (w : Word) (h : s.mem.read (s.val b).toNat = some w) :
    Effect s (.rmem (.reg d) b) ((s.writeReg d w).advance 3)
  | rmemOut (d : RegIdx) (b : Operand) (h : s.mem.size ≤ (s.val b).toNat) :
    Effect s (.rmem (.reg d) b) (s.takeFault .addressOutOfRange (some 15) (zext16 (s.val b)))
  | wmem (a b : Operand) (m : Memory) (h : s.mem.write (s.val a).toNat (zext16 (s.val b)) = some m) :
    Effect s (.wmem a b) ((s.setMem m).advance 3)
  | wmemOut (a b : Operand) (h : s.mem.size ≤ (s.val a).toNat) :
    Effect s (.wmem a b) (s.takeFault .addressOutOfRange (some 16) (zext16 (s.val a)))
  | call (a : Operand) (h : s.stackFull = false) :
    Effect s (.call a) ((s.push (s.nextPc 2)).setPc (zext16 (s.val a)))
  | ret (l : List Word) (w : Word) (h : s.stack = l ++ [w]) : Effect s .ret ((s.setStack l).setPc w)
  | retEmpty (h : s.stack = []) : Effect s .ret (s.takeFault .stackUnderflow (some 18) 0)
  | out (a : Operand) : Effect s (.out a) ((s.outChar (low8 (s.val a))).advance 2)
  | inp (d : RegIdx) (c : Chr) (cs : List Chr) (h : s.input = c :: cs) :
    Effect s (.inp (.reg d)) (((s.setInput cs).writeReg d (zext16 (zext15 c))).advance 2)
  | inpHold (d : RegIdx) (h : s.input = []) (hc : s.inputClosed = false) : Effect s (.inp (.reg d)) s
  | inpClosed (d : RegIdx) (h : s.input = []) (hc : s.inputClosed = true) :
    Effect s (.inp (.reg d)) (s.takeFault .inputExhausted (some 20) 0)

variable {s t : State}

/-- Stage 4 leads to the literal's fault entry, or to an effect of the rest of the instruction. -/
theorem withSlot_effect {i : Instr} {a : Operand} {rest : RegIdx → Out} (hd : i.dest = some a)
    (h : withSlot i a s rest = .next t) (hrest : ∀ d, a = .reg d → rest d = .next t → Effect s i t) :
    Effect s i t := by
  obtain ⟨d, hr, hn⟩ | ⟨v, hl, ht⟩ := withSlot_next h
  · exact hrest d hr hn
  · rw [ht]
    exact .badSlot i v (by rw [hd, hl])

theorem execHalt_next (h : exec .halt s = .next t) : Effect s .halt t := by
  cases h
  exact .halt

theorem execNoop_next (h : exec .noop s = .next t) : Effect s .noop t := by
  cases h
  exact .noop

theorem execSet_next {a b : Operand} (h : exec (.set a b) s = .next t) : Effect s (.set a b) t := by
  refine withSlot_effect rfl h fun d hd hn => ?_
  subst hd
  rw [commitReg_next hn]
  exact .set d b

theorem execPush_next {a : Operand} (h : exec (.push a) s = .next t) : Effect s (.push a) t := by
  simp only [exec, execPush] at h
  split at h
  · cases h
  · cases h
    exact .push a (Bool.eq_false_iff.2 (by assumption))

theorem execPop_next {a : Operand} (h : exec (.pop a) s = .next t) : Effect s (.pop a) t := by
  refine withSlot_effect rfl h fun d hd hn => ?_
  subst hd
  cases hp : s.pop with
  | none =>
    rw [hp] at hn
    rw [raise_next hn]
    exact .popEmpty d (pop_none.1 hp)
  | some p =>
    rw [hp] at hn
    obtain ⟨l, hl, hs⟩ := pop_some hp
    rw [commitReg_next hn, hs]
    exact .pop d l p.1 hl

theorem execEq_next {a b c : Operand} (h : exec (.eq a b c) s = .next t) : Effect s (.eq a b c) t := by
  refine withSlot_effect rfl h fun d hd hn => ?_
  subst hd
  rw [commitReg_next hn]
  exact .eq d b c

theorem execGt_next {a b c : Operand} (h : exec (.gt a b c) s = .next t) : Effect s (.gt a b c) t := by
  refine withSlot_effect rfl h fun d hd hn => ?_
  subst hd
  rw [commitReg_next hn]
  exact .gt d b c

theorem execAdd_next {a b c : Operand} (h : exec (.add a b c) s = .next t) : Effect s (.add a b c) t := by
  refine withSlot_effect rfl h fun d hd hn => ?_
  subst hd
  rw [commitReg_next hn]
  exact .add d b c

theorem execMult_next {a b c : Operand} (h : exec (.mult a b c) s = .next t) : Effect s (.mult a b c) t := by
  refine withSlot_effect rfl h fun d hd hn => ?_
  subst hd
  rw [commitReg_next hn]
  exact .mult d b c

theorem execAnd_next {a b c : Operand} (h : exec (.and a b c) s = .next t) : Effect s (.and a b c) t := by
  refine withSlot_effect rfl h fun d hd hn => ?_
  subst hd
  rw [commitReg_next hn]
  exact .and d b c

theorem execOr_next {a b c : Operand} (h : exec (.or a b c) s = .next t) : Effect s (.or a b c) t := by
  refine withSlot_effect rfl h fun d hd hn => ?_
  subst hd
  rw [commitReg_next hn]
  exact .or d b c

theorem execMod_next {a b c : Operand} (h : exec (.mod a b c) s = .next t) : Effect s (.mod a b c) t := by
  refine withSlot_effect rfl h fun d hd hn => ?_
  subst hd
  cases hm : aluMod (s.val b) (s.val c) with
  | none =>
    rw [hm] at hn
    rw [raise_next hn]
    refine .modZero d b c ?_
    by_contra hc
    simp [aluMod, hc] at hm
  | some r =>
    rw [hm] at hn
    rw [commitReg_next hn]
    exact .mod d b c r hm

theorem execNot_next {a b : Operand} (h : exec (.not a b) s = .next t) : Effect s (.not a b) t := by
  refine withSlot_effect rfl h fun d hd hn => ?_
  subst hd
  rw [commitReg_next hn]
  exact .not d b

theorem execJmp_next {a : Operand} (h : exec (.jmp a) s = .next t) : Effect s (.jmp a) t := by
  cases h
  exact .jmp a

/-- A value is the number 0 exactly where it is the value 0. -/
theorem toNat_eq_zero (v : Value) : v.toNat = 0 ↔ v = 0 :=
  ⟨fun h => BitVec.eq_of_toNat_eq h, fun h => by rw [h]; rfl⟩

theorem execJt_next {a b : Operand} (h : exec (.jt a b) s = .next t) : Effect s (.jt a b) t := by
  simp only [exec, execJt] at h
  split at h <;> rename_i hc <;> cases h
  · exact .jtTaken a b (fun e => hc ((toNat_eq_zero _).1 e))
  · exact .jtNot a b ((toNat_eq_zero _).2 (by simpa using hc))

theorem execJf_next {a b : Operand} (h : exec (.jf a b) s = .next t) : Effect s (.jf a b) t := by
  simp only [exec, execJf] at h
  split at h <;> rename_i hc <;> cases h
  · exact .jfTaken a b ((toNat_eq_zero _).2 hc)
  · exact .jfNot a b (fun e => hc ((toNat_eq_zero _).1 e))

theorem execRmem_next {a b : Operand} (h : exec (.rmem a b) s = .next t) : Effect s (.rmem a b) t := by
  refine withSlot_effect rfl h fun d hd hn => ?_
  subst hd
  cases hr : s.mem.read (s.val b).toNat with
  | none =>
    rw [hr] at hn
    rw [raise_next hn]
    exact .rmemOut d b ((read_none _ _).1 hr)
  | some w =>
    rw [hr] at hn
    simp only at hn
    split at hn
    · cases hn
    · rw [commitReg_next hn]
      exact .rmem d b w hr

theorem execWmem_next {a b : Operand} (h : exec (.wmem a b) s = .next t) : Effect s (.wmem a b) t := by
  simp only [exec, execWmem] at h
  cases hw : s.mem.write (s.val a).toNat (zext16 (s.val b)) with
  | none =>
    rw [hw] at h
    rw [raise_next h]
    exact .wmemOut a b ((write_none _ _ _).1 hw)
  | some m =>
    rw [hw] at h
    cases h
    exact .wmem a b m hw

theorem execCall_next {a : Operand} (h : exec (.call a) s = .next t) : Effect s (.call a) t := by
  simp only [exec, execCall] at h
  split at h
  · cases h
  · cases h
    exact .call a (Bool.eq_false_iff.2 (by assumption))

theorem execRet_next (h : exec .ret s = .next t) : Effect s .ret t := by
  simp only [exec, execRet] at h
  cases hp : s.pop with
  | none =>
    rw [hp] at h
    rw [raise_next h]
    exact .retEmpty (pop_none.1 hp)
  | some p =>
    rw [hp] at h
    obtain ⟨l, hl, hs⟩ := pop_some hp
    cases h
    rw [hs]
    exact .ret l p.1 hl

theorem execOut_next {a : Operand} (h : exec (.out a) s = .next t) : Effect s (.out a) t := by
  cases h
  exact .out a

theorem execInp_next {a : Operand} (h : exec (.inp a) s = .next t) : Effect s (.inp a) t := by
  refine withSlot_effect rfl h fun d hd hn => ?_
  subst hd
  cases hi : s.input with
  | nil =>
    rw [inChannel_nil hi] at hn
    cases hc : s.inputClosed with
    | true =>
      rw [hc] at hn
      rw [raise_next hn]
      exact .inpClosed d hi hc
    | false =>
      rw [hc] at hn
      cases hn
      exact .inpHold d hi hc
  | cons c cs =>
    rw [inChannel_cons hi] at hn
    rw [commitReg_next hn]
    exact .inp d c cs hi

/-- A next state of an instruction is one of its effects. -/
theorem exec_next {i : Instr} (h : exec i s = .next t) : Effect s i t := by
  cases i with
  | halt => exact execHalt_next h
  | set _ _ => exact execSet_next h
  | push _ => exact execPush_next h
  | pop _ => exact execPop_next h
  | eq _ _ _ => exact execEq_next h
  | gt _ _ _ => exact execGt_next h
  | jmp _ => exact execJmp_next h
  | jt _ _ => exact execJt_next h
  | jf _ _ => exact execJf_next h
  | add _ _ _ => exact execAdd_next h
  | mult _ _ _ => exact execMult_next h
  | mod _ _ _ => exact execMod_next h
  | and _ _ _ => exact execAnd_next h
  | or _ _ _ => exact execOr_next h
  | not _ _ => exact execNot_next h
  | rmem _ _ => exact execRmem_next h
  | wmem _ _ => exact execWmem_next h
  | call _ => exact execCall_next h
  | ret => exact execRet_next h
  | out _ => exact execOut_next h
  | inp _ => exact execInp_next h
  | noop => exact execNoop_next h

/-- An instruction is refused only by a full finite stack, in PUSH and CALL, or by `RMEM_HIGH` = refuse, in
RMEM. -/
theorem exec_refused {i : Instr} {q : Refusal} (h : exec i s = .refused q) :
    (q = .stackFull ∧ s.stackFull = true ∧ ((∃ a, i = .push a) ∨ ∃ a, i = .call a)) ∨
    (q = .rmemHigh ∧ s.config.rmemHigh = .refuse ∧ ∃ a b, i = .rmem a b) := by
  have slotted : ∀ {i a} {rest : RegIdx → Out}, withSlot i a s rest = .refused q →
      ∃ d, a = .reg d ∧ rest d = .refused q := by
    intro i a rest h
    cases a with
    | reg d => exact ⟨d, rfl, h⟩
    | lit v => cases h
  cases i with
  | halt => cases h
  | noop => cases h
  | jmp a => cases h
  | out a => cases h
  | set a b => obtain ⟨d, -, h⟩ := slotted h; cases h
  | eq a b c => obtain ⟨d, -, h⟩ := slotted h; cases h
  | gt a b c => obtain ⟨d, -, h⟩ := slotted h; cases h
  | add a b c => obtain ⟨d, -, h⟩ := slotted h; cases h
  | mult a b c => obtain ⟨d, -, h⟩ := slotted h; cases h
  | and a b c => obtain ⟨d, -, h⟩ := slotted h; cases h
  | or a b c => obtain ⟨d, -, h⟩ := slotted h; cases h
  | not a b => obtain ⟨d, -, h⟩ := slotted h; cases h
  | jt a b => simp only [exec, execJt] at h; split at h <;> cases h
  | jf a b => simp only [exec, execJf] at h; split at h <;> cases h
  | ret => simp only [exec, execRet] at h; split at h <;> cases h
  | wmem a b => simp only [exec, execWmem] at h; split at h <;> cases h
  | pop a => obtain ⟨d, -, h⟩ := slotted h; split at h <;> cases h
  | mod a b c => obtain ⟨d, -, h⟩ := slotted h; split at h <;> cases h
  | inp a => obtain ⟨d, -, h⟩ := slotted h; split at h <;> cases h
  | push a =>
    simp only [exec, execPush] at h
    split at h <;> cases h
    exact .inl ⟨rfl, by assumption, .inl ⟨a, rfl⟩⟩
  | call a =>
    simp only [exec, execCall] at h
    split at h <;> cases h
    exact .inl ⟨rfl, by assumption, .inr ⟨a, rfl⟩⟩
  | rmem a b =>
    obtain ⟨d, -, h⟩ := slotted h
    split at h
    · cases h
    · split at h <;> cases h
      rename_i hc
      exact .inr ⟨rfl, (refusesLoad_eq_true.1 hc).1, a, b, rfl⟩

/-- No instruction ends in a `fault` outcome: the seven faults of the spec are next states (R208). -/
theorem exec_not_fault (i : Instr) (f : Fault) : exec i s ≠ .fault f := nomatch f

end Sys2Proof.Machine
end

