-- ==== Sys2Proof/Laws/PerInstr.lean ====
section
/-! SUPPORT. Statements about each instruction as syntax, one lemma per constructor of Instr. -/

/-- An instruction's encoding begins with its opcode word, one of the 22 recognised numbers (R81), and has
one operand word per operand after it (R80). -/
def Sys2Proof.Laws.OpcodeWord.Statement (i : Sys2Proof.Instr) : Prop :=
  i.opcode.toNat ≤ 21 ∧
    Sys2Proof.encode i = i.opcode :: (Sys2Proof.Machine.operandsOf i).map Sys2Proof.Operand.encode

theorem Sys2Proof.Laws.OpcodeWord.halt :
    Sys2Proof.Laws.OpcodeWord.Statement .halt := ⟨Nat.le_of_ble_eq_true rfl, rfl⟩

theorem Sys2Proof.Laws.OpcodeWord.set (a b : Sys2Proof.Operand) :
    Sys2Proof.Laws.OpcodeWord.Statement (.set a b) := ⟨Nat.le_of_ble_eq_true rfl, rfl⟩

theorem Sys2Proof.Laws.OpcodeWord.push (a : Sys2Proof.Operand) :
    Sys2Proof.Laws.OpcodeWord.Statement (.push a) := ⟨Nat.le_of_ble_eq_true rfl, rfl⟩

theorem Sys2Proof.Laws.OpcodeWord.pop (a : Sys2Proof.Operand) :
    Sys2Proof.Laws.OpcodeWord.Statement (.pop a) := ⟨Nat.le_of_ble_eq_true rfl, rfl⟩

theorem Sys2Proof.Laws.OpcodeWord.eq (a b c : Sys2Proof.Operand) :
    Sys2Proof.Laws.OpcodeWord.Statement (.eq a b c) := ⟨Nat.le_of_ble_eq_true rfl, rfl⟩

theorem Sys2Proof.Laws.OpcodeWord.gt (a b c : Sys2Proof.Operand) :
    Sys2Proof.Laws.OpcodeWord.Statement (.gt a b c) := ⟨Nat.le_of_ble_eq_true rfl, rfl⟩

theorem Sys2Proof.Laws.OpcodeWord.jmp (a : Sys2Proof.Operand) :
    Sys2Proof.Laws.OpcodeWord.Statement (.jmp a) := ⟨Nat.le_of_ble_eq_true rfl, rfl⟩

theorem Sys2Proof.Laws.OpcodeWord.jt (a b : Sys2Proof.Operand) :
    Sys2Proof.Laws.OpcodeWord.Statement (.jt a b) := ⟨Nat.le_of_ble_eq_true rfl, rfl⟩

theorem Sys2Proof.Laws.OpcodeWord.jf (a b : Sys2Proof.Operand) :
    Sys2Proof.Laws.OpcodeWord.Statement (.jf a b) := ⟨Nat.le_of_ble_eq_true rfl, rfl⟩

theorem Sys2Proof.Laws.OpcodeWord.add (a b c : Sys2Proof.Operand) :
    Sys2Proof.Laws.OpcodeWord.Statement (.add a b c) := ⟨Nat.le_of_ble_eq_true rfl, rfl⟩

theorem Sys2Proof.Laws.OpcodeWord.mult (a b c : Sys2Proof.Operand) :
    Sys2Proof.Laws.OpcodeWord.Statement (.mult a b c) := ⟨Nat.le_of_ble_eq_true rfl, rfl⟩

theorem Sys2Proof.Laws.OpcodeWord.mod (a b c : Sys2Proof.Operand) :
    Sys2Proof.Laws.OpcodeWord.Statement (.mod a b c) := ⟨Nat.le_of_ble_eq_true rfl, rfl⟩

theorem Sys2Proof.Laws.OpcodeWord.and (a b c : Sys2Proof.Operand) :
    Sys2Proof.Laws.OpcodeWord.Statement (.and a b c) := ⟨Nat.le_of_ble_eq_true rfl, rfl⟩

theorem Sys2Proof.Laws.OpcodeWord.or (a b c : Sys2Proof.Operand) :
    Sys2Proof.Laws.OpcodeWord.Statement (.or a b c) := ⟨Nat.le_of_ble_eq_true rfl, rfl⟩

theorem Sys2Proof.Laws.OpcodeWord.not (a b : Sys2Proof.Operand) :
    Sys2Proof.Laws.OpcodeWord.Statement (.not a b) := ⟨Nat.le_of_ble_eq_true rfl, rfl⟩

theorem Sys2Proof.Laws.OpcodeWord.rmem (a b : Sys2Proof.Operand) :
    Sys2Proof.Laws.OpcodeWord.Statement (.rmem a b) := ⟨Nat.le_of_ble_eq_true rfl, rfl⟩

theorem Sys2Proof.Laws.OpcodeWord.wmem (a b : Sys2Proof.Operand) :
    Sys2Proof.Laws.OpcodeWord.Statement (.wmem a b) := ⟨Nat.le_of_ble_eq_true rfl, rfl⟩

theorem Sys2Proof.Laws.OpcodeWord.call (a : Sys2Proof.Operand) :
    Sys2Proof.Laws.OpcodeWord.Statement (.call a) := ⟨Nat.le_of_ble_eq_true rfl, rfl⟩

theorem Sys2Proof.Laws.OpcodeWord.ret :
    Sys2Proof.Laws.OpcodeWord.Statement .ret := ⟨Nat.le_of_ble_eq_true rfl, rfl⟩

theorem Sys2Proof.Laws.OpcodeWord.out (a : Sys2Proof.Operand) :
    Sys2Proof.Laws.OpcodeWord.Statement (.out a) := ⟨Nat.le_of_ble_eq_true rfl, rfl⟩

theorem Sys2Proof.Laws.OpcodeWord.inp (a : Sys2Proof.Operand) :
    Sys2Proof.Laws.OpcodeWord.Statement (.inp a) := ⟨Nat.le_of_ble_eq_true rfl, rfl⟩

theorem Sys2Proof.Laws.OpcodeWord.noop :
    Sys2Proof.Laws.OpcodeWord.Statement .noop := ⟨Nat.le_of_ble_eq_true rfl, rfl⟩
end

