-- ==== Sys2Proof/Laws/Step.lean ====
section
/-! SUPPORT. What a step can do, said once. -/

namespace Sys2Proof.Machine

/-- Outside Running nothing changes (R245). -/
theorem step_of_over {s : State} (h : s.status ≠ .running) : step s = .next s := by
  unfold step
  split <;> simp_all

/-- A running step whose fetch answers an instruction executes it (R87). -/
theorem step_of_fetch_ok {s : State} {i : Instr} (hr : s.status = .running) (hf : s.fetch = .ok i) :
    step s = exec i s := by
  simp [step, hr, hf]

/-- A running step whose fetch is stopped enters the fault of that event (R206). -/
theorem step_of_fetch_error {s : State} {e : DecodeError} (hr : s.status = .running)
    (hf : s.fetch = .error e) : step s = .next (s.takeDecodeFault e) := by
  simp [step, hr, hf]

/-- Everything a step can answer. -/
theorem step_cases (s : State) :
    (s.status ≠ .running ∧ step s = .next s) ∨
    (s.status = .running ∧ ∃ i, s.fetch = .ok i ∧ step s = exec i s) ∨
    (s.status = .running ∧ ∃ e, s.fetch = .error e ∧ step s = .next (s.takeDecodeFault e)) := by
  by_cases hr : s.status = .running
  · cases hf : s.fetch with
    | ok i => exact .inr (.inl ⟨hr, i, rfl, step_of_fetch_ok hr hf⟩)
    | error e => exact .inr (.inr ⟨hr, e, rfl, step_of_fetch_error hr hf⟩)
  · exact .inl ⟨hr, step_of_over hr⟩

/-- What `withFetchWord` is for: the very next step runs the instruction the decoder reads from the word. -/
theorem step_withFetchWord {s : State} {nbits w : Nat} {i : Instr} (hm : s.mem.wf = true)
    (hd : decodeTableWord nbits w = some i) :
    step (s.withFetchWord nbits w) = exec i (s.withFetchWord nbits w) := by
  have hlen : (tableWords nbits w).length = 4 := rfl
  have hwin : (s.withFetchWord nbits w).fetchWindow = tableWords nbits w := by
    apply List.ext_getElem?
    intro k
    unfold State.fetchWindow State.withFetchWord
    rw [getElem?_window]
    by_cases hk : k < 4
    · rw [if_pos hk, List.getElem?_eq_getElem (by omega)]
      exact read_place (tableWords nbits w) s.mem s.pc.toNat k hm (by omega)
    · rw [if_neg hk, List.getElem?_eq_none (by omega)]
  refine step_of_fetch_ok rfl ?_
  unfold State.fetch
  rw [hwin]
  unfold decodeTableWord at hd
  cases hdec : decode (tableWords nbits w) with
  | error e => simp [hdec] at hd
  | ok r => simpa [hdec] using hd

end Sys2Proof.Machine
end

