-- ==== Sys2Proof/Tests/Slice0.lean ====
section
/-! SUPPORT. Tests: each evaluates the model on small fixed values whose expected results come from the spec
(its encodings, its worked examples X1 to X10 and its vectors V001 to V117 of spec/95_test_vectors.md), and
for each statement with hypotheses a witness that meets them. -/

namespace Sys2Proof.Tests

open Sys2Proof Sys2Proof.Machine

/-- The state a vector starts from: reset with this image. -/
def boot (image : List Word) : State := { State.reset with mem := Memory.ofImage image }

/-- The same with a value in one register. -/
def bootReg (image : List Word) (r : RegIdx) (v : Word) : State := (boot image).writeReg r v

/-- The same with a stack. -/
def bootStack (image : List Word) (l : List Word) : State := (boot image).setStack l

/-- The same with an input stream. -/
def bootIn (image : List Word) (l : List Chr) (closed : Bool) : State :=
  ((boot image).setInput l).setInputClosed closed

/-- The same with a finite stack. -/
def bootDepth (image : List Word) (d : Nat) : State :=
  { boot image with config := { stackDepth := some d, rmemHigh := .truncate } }

/-- The same with `RMEM_HIGH` = refuse. -/
def bootRefuse (image : List Word) : State :=
  { boot image with config := { stackDepth := none, rmemHigh := .refuse } }

/-- What a next state shows; `none` where the outcome is no next state. -/
def shows {α : Type} (f : State → α) : Out → Option α
  | .next t => some (f t)
  | .fault _ => none
  | .refused _ => none

/-- Why an outcome is refused; `none` where it is not. -/
def refusal : Out → Option Refusal
  | .next _ => none
  | .fault _ => none
  | .refused q => some q

/-- What a vector's fault entry shows: STATUS, the fault code, FAULT.isp, opcode_valid, opcode, info, `pc`. -/
def faultView (t : State) : BitVec 2 × BitVec 3 × Word × BitVec 1 × Word × Word × Word :=
  (t.status.code, t.fault.kind.code, t.fault.isp, t.fault.opcodeValidBit, t.fault.opcode, t.fault.info, t.pc)

/-! ### WellFormed -/

theorem test_wf_set : Instr.wf (.set (.lit 5) (.lit 1)) = false ∧ Instr.wf (.set (.reg 0) (.lit 1)) = true := by decide

theorem test_wf_pop : Instr.wf (.pop (.lit 5)) = false ∧ Instr.wf (.pop (.reg 0)) = true := by decide

theorem test_wf_eq : Instr.wf (.eq (.lit 5) (.lit 1) (.lit 1)) = false ∧ Instr.wf (.eq (.reg 0) (.lit 1) (.lit 1)) = true := by decide

theorem test_wf_gt : Instr.wf (.gt (.lit 5) (.lit 1) (.lit 1)) = false ∧ Instr.wf (.gt (.reg 0) (.lit 1) (.lit 1)) = true := by decide

theorem test_wf_add : Instr.wf (.add (.lit 5) (.lit 1) (.lit 1)) = false ∧ Instr.wf (.add (.reg 0) (.lit 1) (.lit 1)) = true := by decide

theorem test_wf_mult : Instr.wf (.mult (.lit 5) (.lit 1) (.lit 1)) = false ∧ Instr.wf (.mult (.reg 0) (.lit 1) (.lit 1)) = true := by decide

theorem test_wf_mod : Instr.wf (.mod (.lit 5) (.lit 1) (.lit 1)) = false ∧ Instr.wf (.mod (.reg 0) (.lit 1) (.lit 1)) = true := by decide

theorem test_wf_and : Instr.wf (.and (.lit 5) (.lit 1) (.lit 1)) = false ∧ Instr.wf (.and (.reg 0) (.lit 1) (.lit 1)) = true := by decide

theorem test_wf_or : Instr.wf (.or (.lit 5) (.lit 1) (.lit 1)) = false ∧ Instr.wf (.or (.reg 0) (.lit 1) (.lit 1)) = true := by decide

theorem test_wf_not : Instr.wf (.not (.lit 5) (.lit 1)) = false ∧ Instr.wf (.not (.reg 0) (.lit 1)) = true := by decide

theorem test_wf_rmem : Instr.wf (.rmem (.lit 5) (.lit 1)) = false ∧ Instr.wf (.rmem (.reg 0) (.lit 1)) = true := by decide

theorem test_wf_inp : Instr.wf (.inp (.lit 5)) = false ∧ Instr.wf (.inp (.reg 0)) = true := by decide

/-- The instructions without a destination are well-formed with literals everywhere. -/
theorem test_wf_others : ([.halt, .push (.lit 5), .jmp (.lit 5), .jt (.lit 5) (.lit 5), .jf (.lit 5) (.lit 5),
    .wmem (.lit 5) (.lit 5), .call (.lit 5), .ret, .out (.lit 5), .noop] : List Instr).all Instr.wf = true := by
  decide

/-! ### Decoding: words written from R82 (opcode), R80 (order) and R83 (operands) -/

/-- V117: the word after HALT is not decoded. -/
theorem test_decode_halt : decode [0, 40000] = .ok (.halt, [40000]) := by rfl

theorem test_decode_set : decode [1, 32769, 7] = .ok (.set (.reg 1) (.lit 7), []) := by rfl

theorem test_decode_push : decode [2, 32771] = .ok (.push (.reg 3), []) := by rfl

/-- X8. -/
theorem test_decode_pop : decode [3, 32768] = .ok (.pop (.reg 0), []) := by rfl

theorem test_decode_eq : decode [4, 32769, 0, 32770] = .ok (.eq (.reg 1) (.lit 0) (.reg 2), []) := by rfl

theorem test_decode_gt : decode [5, 32768, 303, 300] = .ok (.gt (.reg 0) (.lit 303) (.lit 300), []) := by rfl

theorem test_decode_jmp : decode [6, 32769] = .ok (.jmp (.reg 1), []) := by rfl

theorem test_decode_jt : decode [7, 32768, 6] = .ok (.jt (.reg 0) (.lit 6), []) := by rfl

theorem test_decode_jf : decode [8, 32769, 36] = .ok (.jf (.reg 1) (.lit 36), []) := by rfl

theorem test_decode_add : decode [9, 32775, 32775, 32767] = .ok (.add (.reg 7) (.reg 7) (.lit 32767), []) := by rfl

theorem test_decode_mult : decode [10, 32768, 12345, 1] = .ok (.mult (.reg 0) (.lit 12345) (.lit 1), []) := by rfl

/-- X9. -/
theorem test_decode_mod : decode [11, 32768, 4, 0] = .ok (.mod (.reg 0) (.lit 4) (.lit 0), []) := by rfl

theorem test_decode_and : decode [12, 32768, 32303, 255] = .ok (.and (.reg 0) (.lit 32303) (.lit 255), []) := by rfl

theorem test_decode_or : decode [13, 32768, 47, 256] = .ok (.or (.reg 0) (.lit 47) (.lit 256), []) := by rfl

theorem test_decode_not : decode [14, 32768, 464] = .ok (.not (.reg 0) (.lit 464), []) := by rfl

theorem test_decode_rmem : decode [15, 32769, 32770] = .ok (.rmem (.reg 1) (.reg 2), []) := by rfl

theorem test_decode_wmem : decode [16, 3, 32770] = .ok (.wmem (.lit 3) (.reg 2), []) := by rfl

theorem test_decode_call : decode [17, 32770] = .ok (.call (.reg 2), []) := by rfl

theorem test_decode_ret : decode [18, 7] = .ok (.ret, [7]) := by rfl

theorem test_decode_out : decode [19, 321] = .ok (.out (.lit 321), []) := by rfl

theorem test_decode_inp : decode [20, 32775] = .ok (.inp (.reg 7), []) := by rfl

theorem test_decode_noop : decode [21] = .ok (.noop, []) := by rfl

/-- V006: a literal destination decodes, and faults only when it runs. -/
theorem test_decode_literal_destination : decode [1, 5, 7] = .ok (.set (.lit 5) (.lit 7), []) := by rfl

/-- X5. -/
theorem test_decodeOperand_bounds : decodeOperand 32767 = some (.lit 32767) ∧ decodeOperand 32768 = some (.reg 0) ∧
    decodeOperand 32775 = some (.reg 7) ∧ decodeOperand 32776 = none ∧ decodeOperand 65535 = none := by decide

/-- The words numbered as the opcode table numbers them: the second word is bits 31 to 16. -/
theorem test_decodeTableWord : decodeTableWord 16 21 = some .noop ∧
    decodeTableWord 16 9 = some (.add (.lit 0) (.lit 0) (.lit 0)) ∧
    decodeTableWord 48 (16 + 3 * 2 ^ 16 + 32770 * 2 ^ 32) = some (.wmem (.lit 3) (.reg 2)) ∧
    decodeTableWord 16 22 = none := by decide

/-- The very next step runs the word: SET r1, 7 from the reset state. -/
theorem test_withFetchWord : shows (fun t => (t.reg 1, t.pc))
    (step (State.reset.withFetchWord 48 (1 + 32769 * 2 ^ 16 + 7 * 2 ^ 32))) = some (7, 3) := by decide

/-! ### One step per vector -/

/-- V001. -/
theorem test_halt : shows (fun t => (t.status.code, t.fault.kind.code, t.pc, t.stack, t.output)) (step (boot [0])) =
    some (1, 0, 1, [], []) := by decide

/-- V002, first step. -/
theorem test_noop : shows (fun t => (t.status.code, t.pc)) (step (boot [21, 21, 0])) =
    some (0, 1) := by decide

/-- V005. -/
theorem test_set : shows (fun t => (t.reg 0, t.reg 1, t.pc)) (step (bootReg [1, 32768, 32769] 1 9)) =
    some (9, 9, 3) := by decide

/-- V009. -/
theorem test_push : shows (fun t => (t.stack, t.pc)) (step (bootReg [2, 32771] 3 77)) =
    some ([77], 2) := by decide

/-- V015. -/
theorem test_pop_newest : shows (fun t => (t.reg 1, t.stack, t.pc)) (step (bootStack [3, 32769] [5, 6, 7])) =
    some (7, [5, 6], 2) := by decide

/-- V014. -/
theorem test_pop_low15 : shows (fun t => (t.reg 4, t.stack)) (step ((boot [3, 32772]).writeReg 4 5 |>.setStack [32768])) =
    some (0, []) := by decide

/-- V016. -/
theorem test_eq : shows (fun t => (t.reg 0, t.pc)) (step (boot [4, 32768, 5, 5])) =
    some (1, 4) := by decide

/-- V017. -/
theorem test_eq_unequal : shows (fun t => t.reg 0) (step (bootReg [4, 32768, 5, 6] 0 9)) =
    some (0) := by decide

/-- V024. -/
theorem test_gt_unsigned : shows (fun t => (t.reg 0, t.pc)) (step (boot [5, 32768, 16384, 16383])) =
    some (1, 4) := by decide

/-- V021. -/
theorem test_gt_smaller : shows (fun t => t.reg 0) (step (bootReg [5, 32768, 0, 32767] 0 1)) =
    some (0) := by decide

/-- V026. -/
theorem test_jmp : shows (fun t => (t.status.code, t.pc)) (step (bootReg [6, 32769] 1 500)) =
    some (0, 500) := by decide

/-- V029. -/
theorem test_jt_taken : shows (fun t => t.pc) (step (bootReg [7, 32768, 6, 0, 0, 0, 0] 0 2)) =
    some (6) := by decide

/-- V032. -/
theorem test_jt_not_taken : shows (fun t => (t.status.code, t.pc)) (step (boot [7, 0, 5000, 0])) =
    some (0, 3) := by decide

/-- V035. -/
theorem test_jf_taken : shows (fun t => t.pc) (step (boot [8, 32769, 36])) =
    some (36) := by decide

/-- V034. -/
theorem test_jf_not_taken : shows (fun t => t.pc) (step (bootReg [8, 32769, 36] 1 1)) =
    some (3) := by decide

/-- V038. -/
theorem test_add_wraps : shows (fun t => (t.reg 0, t.pc)) (step (bootReg [9, 32768, 32767, 1] 0 5)) =
    some (0, 4) := by decide

/-- V041. -/
theorem test_add_in_place : shows (fun t => t.reg 0) (step (bootReg [9, 32768, 32768, 32768] 0 20000)) =
    some (7232) := by decide

/-- V043. -/
theorem test_mult : shows (fun t => (t.reg 0, t.pc)) (step (boot [10, 32768, 300, 300])) =
    some (24464, 4) := by decide

/-- V044. -/
theorem test_mult_largest : shows (fun t => t.reg 0) (step (boot [10, 32768, 32767, 32767])) =
    some (1) := by decide

/-- V051. -/
theorem test_mod : shows (fun t => (t.reg 0, t.pc)) (step (boot [11, 32768, 24464, 1000])) =
    some (464, 4) := by decide

/-- V052. -/
theorem test_mod_by_zero : shows (fun t => (faultView t, t.reg 0)) (step (bootReg [11, 32768, 4, 0] 0 77)) =
    some ((2, 6, 0, 1, 11, 4, 0), 77) := by decide

/-- V059. -/
theorem test_and : shows (fun t => (t.reg 0, t.pc)) (step (boot [12, 32768, 32303, 255])) =
    some (47, 4) := by decide

/-- V062. -/
theorem test_or : shows (fun t => (t.reg 0, t.pc)) (step (boot [13, 32768, 47, 256])) =
    some (303, 4) := by decide

/-- V065. -/
theorem test_not : shows (fun t => (t.reg 0, t.pc)) (step (boot [14, 32768, 464])) =
    some (32303, 3) := by decide

/-- V066. -/
theorem test_not_zero : shows (fun t => t.reg 0) (step (boot [14, 32768, 0])) =
    some (32767) := by decide

/-- V074. -/
theorem test_rmem : shows (fun t => (t.reg 1, t.pc)) (step (bootReg [15, 32769, 32769, 0, 42] 1 4)) =
    some (42, 3) := by decide

/-- V072. -/
theorem test_rmem_low15 : shows (fun t => t.reg 1) (step (boot [15, 32769, 3, 32775])) =
    some (7) := by decide

/-- V077. -/
theorem test_wmem : shows (fun t => (t.mem.window 0 6, t.pc)) (step (bootReg [16, 32768, 5, 0, 0, 0] 0 4)) =
    some ([16, 32768, 5, 0, 5, 0], 3) := by decide

/-- V079, first step. -/
theorem test_wmem_over_itself : shows (fun t => (t.mem.window 0 4, t.pc)) (step (boot [16, 0, 21, 0])) =
    some ([21, 0, 21, 0], 3) := by decide

/-- V088. -/
theorem test_call : shows (fun t => (t.stack, t.pc)) (step (bootReg [17, 32770] 2 9)) =
    some ([2], 9) := by decide

/-- V086. -/
theorem test_ret : shows (fun t => (t.stack, t.pc)) (step (bootStack [18] [7, 12])) =
    some ([7], 12) := by decide

/-- V091, first step. -/
theorem test_ret_all_16_bits : shows (fun t => (t.status.code, t.stack, t.pc)) (step (bootStack [18, 0] [32768])) =
    some (0, [], 32768) := by decide

/-- V092. -/
theorem test_out : shows (fun t => (t.output, t.pc)) (step (boot [19, 321])) =
    some ([65], 2) := by decide

/-- V094. -/
theorem test_out_zero : shows (fun t => t.output) (step (boot [19, 256])) =
    some ([0]) := by decide

/-- V100. -/
theorem test_in : shows (fun t => (t.reg 7, t.input, t.pc)) (step (bootIn [20, 32775] [255, 0] true)) =
    some (255, [0], 2) := by decide

/-- V099. -/
theorem test_in_literal : shows (fun t => (faultView t, t.input)) (step (bootIn [20, 5] [104] true)) =
    some ((2, 3, 0, 1, 20, 5, 0), [104]) := by decide

/-! ### Faults -/

/-- V102. -/
theorem test_fault_invalid_opcode : shows (fun t => faultView t) (step (boot [22])) =
    some (2, 1, 0, 1, 22, 22, 0) := by decide

/-- V104. -/
theorem test_fault_opcode_65535 : shows (fun t => faultView t) (step (boot [65535])) =
    some (2, 1, 0, 1, 65535, 65535, 0) := by decide

/-- V105. -/
theorem test_fault_invalid_operand : shows (fun t => faultView t) (step (boot [1, 32776, 0])) =
    some (2, 2, 0, 1, 1, 32776, 0) := by decide

/-- V106. -/
theorem test_fault_decode_before_target : shows (fun t => faultView t) (step (boot [1, 5, 40000])) =
    some (2, 2, 0, 1, 1, 40000, 0) := by decide

/-- V107. -/
theorem test_fault_target_before_division : shows (fun t => faultView t) (step (boot [11, 7, 4, 0])) =
    some (2, 3, 0, 1, 11, 7, 0) := by decide

/-- V013. -/
theorem test_fault_target_before_pop : shows (fun t => faultView t) (step (boot [3, 5])) =
    some (2, 3, 0, 1, 3, 5, 0) := by decide

/-- V011, X8. -/
theorem test_fault_pop_underflow : shows (fun t => faultView t) (step (boot [3, 32768])) =
    some (2, 4, 0, 1, 3, 0, 0) := by decide

/-- V085. -/
theorem test_fault_ret_underflow : shows (fun t => faultView t) (step (boot [18])) =
    some (2, 4, 0, 1, 18, 0, 0) := by decide

/-- V073. -/
theorem test_fault_rmem_address : shows (fun t => faultView t) (step (boot [15, 32768, 100])) =
    some (2, 5, 0, 1, 15, 100, 0) := by decide

/-- V078: the first cell past the end. -/
theorem test_fault_wmem_address : shows (fun t => faultView t) (step (boot [16, 6, 1])) =
    some (2, 5, 0, 1, 16, 6, 0) := by decide

/-- V110: the empty image, and so the first step from `State.reset`. -/
theorem test_fault_opcode_fetch : shows (fun t => faultView t) (step (boot [])) =
    some (2, 5, 0, 0, 0, 0, 0) := by decide

/-- V112: the third operand is missing. -/
theorem test_fault_operand_fetch : shows (fun t => faultView t) (step (boot [9, 32768, 1])) =
    some (2, 5, 0, 1, 9, 3, 0) := by decide

/-- V031: JT not taken, its target operand invalid. -/
theorem test_fault_unused_operand : shows (fun t => faultView t) (step (boot [7, 0, 40000])) =
    some (2, 2, 0, 1, 7, 40000, 0) := by decide

/-- V098. -/
theorem test_fault_input_exhausted : shows (fun t => faultView t) (step (bootIn [20, 32768] [] true)) =
    some (2, 7, 0, 1, 20, 0, 0) := by decide

/-! ### Witnesses: what the hypotheses of a statement ask is met -/

theorem test_witness_EncodingIsTheOnlyWordsOfAnInstruction :
    decode [9, 32768, 4, 4, 19] = .ok (.add (.reg 0) (.lit 4) (.lit 4), [19]) := by rfl

theorem test_witness_OpcodeWordIsCheckedWhole :
    21 < (22 : Word).toNat ∧ decode (21 :: [7]) = .ok (.noop, [7]) ∧
    decode (22 :: []) = .error (.invalidOpcode 22) ∧ (21 : Word).toNat ≤ 21 ∧ (0 : Word).toNat ≤ 21 :=
  ⟨by decide, rfl, rfl, by decide, by decide⟩

theorem test_witness_OperandWordsAreClassified :
    (0 : Word).toNat ≤ 32767 ∧ (32767 : Word).toNat ≤ 32767 ∧
    32768 ≤ (32768 : Word).toNat ∧ (32768 : Word).toNat ≤ 32775 ∧
    32768 ≤ (32775 : Word).toNat ∧ (32775 : Word).toNat ≤ 32775 ∧
    32776 ≤ (32776 : Word).toNat ∧ 32776 ≤ (65535 : Word).toNat := by decide

/-- ADD r0 with operand 1 missing, and with operand 1 invalid. -/
theorem test_witness_LeftmostOperandEventIsReported :
    arity 9 = some 3 ∧ 1 < 3 ∧
    (∀ j, j < 1 → ∃ w o, ([32768] : List Word)[j]? = some w ∧ decodeOperand w = some o) ∧
    ([32768] : List Word)[1]? = none ∧
    (∀ j, j < 1 → ∃ w o, ([32768, 32776, 40000] : List Word)[j]? = some w ∧ decodeOperand w = some o) ∧
    ([32768, 32776, 40000] : List Word)[1]? = some 32776 ∧ decodeOperand 32776 = none := by
  refine ⟨by decide, by decide, ?_, by decide, ?_, by decide, by decide⟩ <;>
  · intro j hj
    obtain rfl : j = 0 := by omega
    exact ⟨32768, .reg 0, by decide, by decide⟩

theorem test_witness_LengthIsFixedByTheOpcodeWord :
    decode (2 :: [300, 7]) = .ok (.push (.lit 300), [7]) := by rfl

theorem test_witness_StepRunsDecodedInstruction :
    (boot [21, 0]).status = .running ∧ decode (boot [21, 0]).fetchWindow = .ok (.noop, [0]) :=
  ⟨rfl, rfl⟩

theorem test_witness_StepRunsTheInstructionStandingAtPc :
    (boot [2, 300]).status = .running ∧
    ∀ k w, (encode (.push (.lit 300)))[k]? = some w →
      (boot [2, 300]).mem.read ((boot [2, 300]).pc.toNat + k) = some w := by
  refine ⟨rfl, fun k w h => ?_⟩
  match k, h with
  | 0, h => exact h
  | 1, h => exact h
  | k + 2, h => simp [encode] at h

/-- Clause by clause: the empty memory and one step past the last cell; opcode words 22 and 65535; ADD with
its last operand missing, with its second invalid, and OUT with its only one missing. -/
theorem test_witness_StepRaisesFetchAndDecodeFaults :
    ((boot []).status = .running ∧ (boot []).mem.size ≤ (boot []).pc.toNat) ∧
    ((boot [21]).setPc 1).mem.size ≤ ((boot [21]).setPc 1).pc.toNat ∧
    ((boot [22]).mem.read (boot [22]).pc.toNat = some 22 ∧ 21 < (22 : Word).toNat) ∧
    ((boot [65535]).mem.read (boot [65535]).pc.toNat = some 65535 ∧ 21 < (65535 : Word).toNat) ∧
    ((boot [9, 32768, 1]).mem.size ≤ maxCells ∧ (boot [9, 32768, 1]).mem.read 0 = some 9 ∧
      arity 9 = some 3 ∧
      (∀ j, j < 2 → ∃ w o, (boot [9, 32768, 1]).mem.read (0 + 1 + j) = some w ∧ decodeOperand w = some o) ∧
      (boot [9, 32768, 1]).mem.size ≤ 0 + 1 + 2) ∧
    ((∀ j, j < 1 → ∃ w o, (boot [9, 32768, 32776]).mem.read (0 + 1 + j) = some w ∧
        decodeOperand w = some o) ∧
      (boot [9, 32768, 32776]).mem.read (0 + 1 + 1) = some 32776 ∧ 32776 ≤ (32776 : Word).toNat) ∧
    ((boot [19]).mem.read 0 = some 19 ∧ arity 19 = some 1 ∧ (boot [19]).mem.size ≤ 0 + 1 + 0) := by
  refine ⟨by decide, by decide, by decide, by decide, ⟨by decide, by decide, by decide, ?_, by decide⟩,
    ⟨?_, by decide, by decide⟩, by decide⟩
  · intro j hj
    match j, hj with
    | 0, _ => exact ⟨32768, .reg 0, by decide, by decide⟩
    | 1, _ => exact ⟨1, .lit 1, by decide, by decide⟩
  · intro j hj
    obtain rfl : j = 0 := by omega
    exact ⟨32768, .reg 0, by decide, by decide⟩

theorem test_witness_FetchFollowsTheStages :
    (boot [2, 300]).fetch = .ok (.push (.lit 300)) ∧ (boot [22]).fetch = .error (.invalidOpcode 22) :=
  ⟨rfl, rfl⟩

theorem test_witness_EndedRunIsFrozen :
    ((boot [21]).setStatus .halted).status ≠ .running ∧ ((boot [21]).setStatus .faulted).status ≠ .running := by
  decide

/-- The default parameters, and that each of the two refusals does happen: the stack limit is 1 and one entry
stands; the word 32768 is the first above 32767. -/
theorem test_witness_StepIsRefusedOnlyByAParameter :
    (boot [21]).config = Config.default ∧
    refusal (step ((bootDepth [2, 300] 1).setStack [7])) = some .stackFull ∧
    refusal (step ((bootDepth [17, 0] 0))) = some .stackFull ∧
    refusal (step (bootRefuse [15, 32768, 1])) = some .rmemHigh := by decide

/-- A state other than the reset state meets the invariant: NOOP in memory, a return address on the stack. -/
theorem inv_boot_noop : (bootStack [21, 0] [2]).Inv where
  memWf := by decide
  memSize := by decide
  pcRange := .inl (by decide)
  stackRange := by
    intro e he
    obtain rfl : e = 2 := by simpa [bootStack, State.setStack] using he
    exact .inl (by decide)
  stackDepth := by intro n hn; cases hn
  faultClear := fun _ => rfl
  faultKept := by intro h; cases h

theorem test_witness_StepKeepsTheInvariant :
    (bootStack [21, 0] [2]).Inv ∧
    step (bootStack [21, 0] [2]) = .next ((bootStack [21, 0] [2]).setPc 1) :=
  ⟨inv_boot_noop, rfl⟩

/-- The longest image. -/
theorem test_witness_ResetWithImageSetsEveryPiece : (List.replicate 32768 (21 : Word)).length ≤ 32768 :=
  Nat.le_of_eq List.length_replicate

/-- A reset that answers a next state, the shortest image that is refused, and the invariant. -/
theorem test_witness_HostActionsKeepTheInvariant :
    (∃ t, State.resetWith [21] State.reset = .next t) ∧ 32768 < (List.replicate 32769 (21 : Word)).length ∧
    (bootStack [21, 0] [2]).Inv :=
  ⟨⟨_, rfl⟩, by rw [List.length_replicate]; omega, inv_boot_noop⟩

theorem test_witness_HaltedIsReachedOnlyByHalt :
    step (boot [0]) = .next (((boot [0]).setStatus .halted).setPc 1) ∧ (boot [0]).status ≠ .halted ∧
    (boot [0]).status = .running ∧ (boot [0]).fetch = .ok .halt :=
  ⟨rfl, by decide, rfl, rfl⟩

/-- One state for each of the three cases. -/
theorem test_witness_StatusChangesOnlyAtTheEnd :
    shows (·.status) (step (boot [21])) = some .running ∧ shows (·.status) (step (boot [0])) = some .halted ∧
    shows (·.status) (step (boot [22])) = some .faulted := by decide

theorem test_witness_FaultsArePrecise :
    (boot [22]).status = .running ∧
    step (boot [22]) = .next ((boot [22]).takeFault .invalidOpcode (some 22) 22) ∧
    ((boot [22]).takeFault .invalidOpcode (some 22) 22).status = .faulted := ⟨rfl, rfl, rfl⟩

/-- Each of the seven kinds, AddressOutOfRange in each of its four situations. -/
theorem test_witness_FaultKindNamesItsCause :
    [boot [22], boot [1, 32776, 0], boot [1, 5, 7], boot [3, 32768], boot [18], boot [], boot [1],
      boot [15, 32768, 3], boot [16, 3, 0], boot [11, 32768, 4, 0], bootIn [20, 32768] [] true].map
        (fun s => (s.status, shows (fun t => (t.status, t.fault.kind)) (step s))) =
    [.invalidOpcode, .invalidOperandEncoding, .invalidWriteTarget, .stackUnderflow, .stackUnderflow,
      .addressOutOfRange, .addressOutOfRange, .addressOutOfRange, .addressOutOfRange, .divisionByZero,
      .inputExhausted].map (fun k => (.running, some (.faulted, k))) := by decide

/-- Literals 0 and 32767 in the destination of SET. -/
theorem test_witness_LiteralDestinationFaults :
    Instr.dest (.set (.lit 0) (.lit 7)) = some (.lit 0) ∧
    Instr.dest (.set (.lit 32767) (.lit 7)) = some (.lit 32767) := by decide

/-- The empty stack; the divisor 0; the first address past the end of a memory of three cells; a stream that
is empty and closed. -/
theorem test_witness_ExecuteFaultsAreRecorded :
    (boot [3, 32768]).stack = [] ∧ ((boot []).val (.lit 0)).toNat = 0 ∧
    (boot [15, 32768, 3]).mem.size ≤ ((boot [15, 32768, 3]).val (.lit 3)).toNat ∧
    (bootIn [] [] true).input = [] ∧ (bootIn [] [] true).inputClosed = true := by decide

/-- PUSH, CALL, POP, RET, a faulting POP, and ADD. -/
theorem test_witness_StackDepthChanges :
    (boot []).status = .running ∧
    shows (fun t => (t.status, t.stack)) (exec (.push (.lit 5)) (bootStack [] [7])) = some (.running, [7, 5]) ∧
    shows (fun t => (t.status, t.stack)) (exec (.call (.lit 5)) (bootStack [] [7])) = some (.running, [7, 2]) ∧
    shows (fun t => (t.status, t.stack)) (exec (.pop (.reg 0)) (bootStack [] [7])) = some (.running, []) ∧
    shows (fun t => (t.status, t.stack)) (exec .ret (bootStack [] [7])) = some (.running, []) ∧
    shows (fun t => (t.status, t.stack)) (exec (.pop (.reg 0)) (boot [])) = some (.faulted, []) ∧
    shows (fun t => (t.status, t.stack)) (exec (.add (.reg 0) (.lit 1) (.lit 1)) (bootStack [] [7])) =
      some (.running, [7]) := by decide

theorem test_witness_RegistersAreWrittenOnlyThroughTheDestination :
    exec (.set (.reg 7) (.lit 5)) (boot []) = .next (((boot []).writeReg 7 5).setPc 3) ∧
    (((boot []).writeReg 7 5).setPc 3).reg 7 ≠ (boot []).reg 7 := ⟨rfl, by decide⟩

/-- A register that is neither source nor destination, one that is the destination alone, and a refusal. -/
theorem test_witness_UnnamedRegisterHasNoInfluence :
    Operand.reg 2 ∉ Instr.sources (.set (.reg 0) (.reg 1)) ∧
    Operand.reg 0 ∉ Instr.sources (.set (.reg 0) (.reg 1)) ∧
    (shows (fun t => t.pc) (exec (.set (.reg 0) (.reg 1)) (boot []))) = some 3 ∧
    Operand.reg 2 ∉ Instr.sources (.push (.reg 1)) ∧
    refusal (exec (.push (.reg 1)) (bootDepth [] 0)) = some .stackFull := by decide

/-- WMEM to the last cell. -/
theorem test_witness_OnlyWmemChangesMemory :
    (boot [16, 3, 5, 0]).mem.wf = true ∧
    shows (fun t => (t.mem.read 3, t.mem.read 2)) (step (boot [16, 3, 5, 0])) = some (some 5, some 5) ∧
    (boot [16, 3, 5, 0]).mem.read 3 = some 0 := by decide

/-- Both cases. -/
theorem test_witness_OutputGrowsOnlyByOut :
    shows (·.output) (step (boot [19, 321])) = some [65] ∧ shows (·.output) (step (boot [21])) = some [] := by
  decide

/-- Both cases. -/
theorem test_witness_InputIsConsumedOnlyByIn :
    shows (fun t => (t.input, t.reg 0)) (step (bootIn [20, 32768] [104, 105] false)) = some ([105], 104) ∧
    shows (·.input) (step (bootIn [21] [104] false)) = some [104] := by decide

/-- Each row of the table: JT and JF with 0 and 1, IN with and without a character, and a fault. -/
theorem test_witness_NextPcFollowsTheTable :
    (boot []).status = .running ∧
    [.halt, .noop, .push (.lit 5), .pop (.reg 0), .out (.lit 5), .set (.reg 0) (.lit 5),
      .not (.reg 0) (.lit 5), .rmem (.reg 0) (.lit 0), .wmem (.lit 0) (.lit 5),
      .eq (.reg 0) (.lit 5) (.lit 5), .gt (.reg 0) (.lit 5) (.lit 5), .add (.reg 0) (.lit 5) (.lit 5),
      .mult (.reg 0) (.lit 5) (.lit 5), .mod (.reg 0) (.lit 5) (.lit 1), .and (.reg 0) (.lit 5) (.lit 5),
      .or (.reg 0) (.lit 5) (.lit 5), .jmp (.lit 9), .jt (.lit 1) (.lit 9), .jt (.lit 0) (.lit 9),
      .jf (.lit 1) (.lit 9), .jf (.lit 0) (.lit 9), .call (.lit 9), .ret, .inp (.reg 0),
      .mod (.reg 0) (.lit 5) (.lit 0)].map
        (fun i => shows (fun t => t.pc) (exec i ((boot [21]).setStack [12]))) =
      ([1, 1, 2, 2, 2, 3, 3, 3, 3, 4, 4, 4, 4, 4, 4, 4, 9, 9, 3, 3, 9, 9, 12, 0, 0] : List Word).map some ∧
    shows (fun t => t.pc) (exec (.inp (.reg 0)) (bootIn [] [104] false)) = some 2 := by decide

/-- Clause by clause, with the first address past the end: JMP and CALL 2; JT 1, 3 and JF 0, 3; RET to 1; and a
JMP that has committed. -/
theorem test_witness_BadTargetFaultsAtTheNextFetch :
    ((boot [6, 2]).status = .running ∧ (boot [6, 2]).mem.size ≤ ((boot [6, 2]).val (.lit 2)).toNat) ∧
    ((boot [7, 1, 3]).mem.size ≤ ((boot [7, 1, 3]).val (.lit 3)).toNat ∧
      ((boot [7, 1, 3]).val (.lit 1)).toNat ≠ 0 ∧ ((boot [7, 1, 3]).val (.lit 0)).toNat = 0) ∧
    ((bootStack [18] [5, 1]).status = .running ∧ (bootStack [18] [5, 1]).stack = [5] ++ [1] ∧
      (bootStack [18] [5, 1]).mem.size ≤ (1 : Word).toNat) ∧
    ((boot [6, 2]).mem.wf = true ∧ exec (.jmp (.lit 2)) (boot [6, 2]) = .next ((boot [6, 2]).setPc 2) ∧
      ((boot [6, 2]).setPc 2).status = .running ∧
      (boot [6, 2]).mem.size ≤ ((boot [6, 2]).setPc 2).pc.toNat) :=
  ⟨by decide, by decide, by decide, by decide, rfl, rfl, by decide⟩

/-- For its CALL clause: an unbounded stack has room. -/
theorem test_witness_BadTargetFaultsAtTheNextFetch_room : (boot [17, 2]).HasRoom := by intro n hn; cases hn

theorem test_witness_AddAndMultFormARing :
    exec (.add (.reg 0) (.lit 32767) (.lit 1)) (boot []) = .next (((boot []).writeReg 0 0).setPc 4) ∧
    exec (.mult (.reg 0) (.lit 32767) (.lit 2)) (boot []) = .next (((boot []).writeReg 0 32766).setPc 4) :=
  ⟨rfl, rfl⟩

/-- WMEM to the last of four cells, fetched as an opcode and as the third operand. -/
theorem test_witness_StoredWordIsTheNextFetched :
    (boot [16, 3, 21, 0]).mem.wf = true ∧
    ((boot [16, 3, 21, 0]).val (.lit 3)).toNat < (boot [16, 3, 21, 0]).mem.size ∧
    (shows (fun t => t.mem.read 3) (exec (.wmem (.lit 3) (.lit 21)) (boot [16, 3, 21, 0]))) = some (some 21) ∧
    (3 : Word).toNat + 0 = ((boot [16, 3, 21, 0]).val (.lit 3)).toNat ∧
    (0 : Word).toNat + 3 = ((boot [16, 3, 21, 0]).val (.lit 3)).toNat := by decide

/-- A memory that lists a cell, and one made by a store of 0 that unlists it. -/
theorem test_witness_CanonicalMemoryIsDeterminedByItsReads :
    Memory.wf { size := 2, cells := [(1, 7)] } = true ∧
    (Memory.ofImage [5, 7]).write 0 0 = some { size := 2, cells := [(1, 7)] } ∧
    (∀ k, Memory.read { size := 2, cells := [(1, 7)] } k = Memory.read { size := 2, cells := [(1, 7)] } k) :=
  ⟨by decide, by decide, fun _ => rfl⟩

/-- An unbounded stack, and a finite one with its last place free. -/
theorem hasRoom_boot : (boot []).HasRoom := by intro n hn; cases hn

theorem hasRoom_last : ((bootDepth [] 2).setStack [7]).HasRoom := by
  intro n hn
  obtain rfl : 2 = n := by simpa [bootDepth, State.setStack] using hn
  decide

theorem test_witness_PushAppendsTheValue : (boot []).HasRoom ∧ ((bootDepth [] 2).setStack [7]).HasRoom :=
  ⟨hasRoom_boot, hasRoom_last⟩

theorem test_witness_PushThenPopReturnsTheValue :
    (boot []).HasRoom ∧ ((bootDepth [] 2).setStack [7]).HasRoom := ⟨hasRoom_boot, hasRoom_last⟩

theorem test_witness_CallPushesTheReturnAddress :
    (boot []).HasRoom ∧ ((bootDepth [] 2).setStack [7]).HasRoom := ⟨hasRoom_boot, hasRoom_last⟩

theorem test_witness_CallThenRetResumesAfterTheCall :
    (boot []).HasRoom ∧ ((bootDepth [] 2).setStack [7]).HasRoom := ⟨hasRoom_boot, hasRoom_last⟩

/-- The full stack of depth 0, and of depth 1. -/
theorem test_witness_FullFiniteStackRefusesPushAndCall :
    (bootDepth [] 0).config.stackDepth = some 0 ∧ 0 ≤ (bootDepth [] 0).stack.length ∧
    ((bootDepth [] 1).setStack [7]).config.stackDepth = some 1 ∧
    1 ≤ ((bootDepth [] 1).setStack [7]).stack.length := by decide

theorem test_witness_PopTakesTheLastEntry :
    (bootStack [] [5, 32768]).stack = [5] ++ [32768] ∧ (boot []).stack = [] := by decide

theorem test_witness_RetPopsTheProgramCounter :
    (bootStack [] [32768]).stack = [] ++ [32768] ∧ (boot []).stack = [] := by decide

/-- The two forms of the source operand. -/
theorem test_witness_SetCopiesAValue :
    Operand.lit 7 = .lit 7 ∧ Operand.reg 0 = .reg 0 := by decide

theorem test_witness_JtJumpsOnNonZero :
    ((boot []).val (.lit 1)).toNat ≠ 0 ∧ ((boot []).val (.lit 0)).toNat = 0 := by decide

theorem test_witness_JfJumpsOnZero :
    ((boot []).val (.lit 0)).toNat = 0 ∧ ((boot []).val (.lit 1)).toNat ≠ 0 := by decide

theorem test_witness_ModIsTheRemainder :
    ((boot []).val (.lit 1)).toNat ≠ 0 ∧ ((boot []).val (.lit 0)).toNat = 0 := by decide

/-- The lowest and the highest bit. -/
theorem test_witness_NotInvertsFifteenBits : 0 < 15 ∧ 14 < 15 := by decide

/-- A cell with 65535 under truncate; 32767 and 32768 under refuse; the last cell and the first past it. -/
theorem test_witness_RmemLoadsTheCell :
    ((boot [65535]).mem.read ((boot [65535]).val (.lit 0)).toNat = some 65535 ∧
      (boot [65535]).config.rmemHigh = .truncate) ∧
    ((bootRefuse [32767]).mem.read ((bootRefuse [32767]).val (.lit 0)).toNat = some 32767 ∧
      (32767 : Word).toNat ≤ 32767) ∧
    ((bootRefuse [32768]).mem.read ((bootRefuse [32768]).val (.lit 0)).toNat = some 32768 ∧
      (bootRefuse [32768]).config.rmemHigh = .refuse ∧ 32767 < (32768 : Word).toNat) ∧
    (boot [65535]).mem.size ≤ ((boot [65535]).val (.lit 1)).toNat := by decide

/-- The last of two cells and the first past them. -/
theorem test_witness_WmemStoresTheValue :
    (boot [5, 7]).mem.wf = true ∧ ((boot [5, 7]).val (.lit 1)).toNat < (boot [5, 7]).mem.size ∧
    (boot [5, 7]).mem.size ≤ ((boot [5, 7]).val (.lit 2)).toNat := by decide

/-- The three conditions of the channel; a closed stream with a character still delivers it. -/
theorem test_witness_InTakesHoldsOrFaults :
    (bootIn [] [104, 105] true).input = 104 :: [105] ∧
    ((bootIn [] [] false).input = [] ∧ (bootIn [] [] false).inputClosed = false) ∧
    ((bootIn [] [] true).input = [] ∧ (bootIn [] [] true).inputClosed = true) := by decide

theorem test_witness_HeldInEndsWhenTheHostActs :
    (boot [20, 32768]).status = .running ∧ (boot [20, 32768]).fetch = .ok (.inp (.reg 0)) ∧
    (boot [20, 32768]).input = [] ∧ (boot [20, 32768]).inputClosed = false := ⟨rfl, rfl, rfl, rfl⟩

end Sys2Proof.Tests
end

section
/-! PROOFS. What moving `pc` alone leaves unchanged, and NOOP (spec/40_halt_noop.md R111). -/

namespace Sys2Proof.Machine

/-- Setting `pc` is the frame R111 and the jumps (R140 to R142) share. -/
theorem onlyPc_setPc (s : State) (target : Word) : OnlyPc s (s.setPc target) where
  regs := setPc_reg s target
  mem := sameMem_of_eq (setPc_mem s target)
  stack := setPc_stack s target
  channels := ⟨setPc_output s target, setPc_input s target, setPc_inputClosed s target⟩
  run := ⟨setPc_status s target, setPc_fault s target, setPc_config s target⟩

theorem onlyPc_advance (s : State) (n : Nat) : OnlyPc s (s.advance n) :=
  onlyPc_setPc s (s.nextPc n)

/-- Committing an `n`-cell instruction in sequence moves `pc` to P + n (R24). -/
theorem pcPlus_advance (s : State) (n : Nat) : PcPlus n s (s.advance n) :=
  advance_pc s n

theorem exec_noop (s : State) : exec .noop s = .next (s.advance 1) := rfl

/-- Settles O35: NOOP is `advance 1`, which moves `pc` by one cell and touches nothing else. -/
theorem noopOnlyAdvances : Obligations.NoopOnlyAdvances := fun s =>
  ⟨s.advance 1, exec_noop s, pcPlus_advance s 1, onlyPc_advance s 1⟩

end Sys2Proof.Machine
end

section
/-! PROOFS. The commit of a value and the fault of a literal destination, which the register-writing
instructions share, and SET (spec/41_set_push_pop.md R120). -/

namespace Sys2Proof.Machine

/-- A value is 15 bits wide, so the write port stores it unreduced (R22). -/
theorem commitReg_value (d : RegIdx) (v : Value) (n : Nat) (s : State) :
    ∃ t, commitReg d (zext16 v) n s = .next t ∧ RegCommit d v.toNat n s t := by
  obtain ⟨t, hnext, hcommit⟩ := commitReg_commit d (zext16 v) n s
  have hport : (zext16 v).toNat % 32768 = v.toNat := by
    rw [toNat_zext16]
    exact Nat.mod_eq_of_lt v.isLt
  exact ⟨t, hnext, hport ▸ hcommit⟩

/-- After a commit of the number of `v`, the register holds `v` itself. -/
theorem RegCommit.reg_eq {d : RegIdx} {v : Value} {n : Nat} {s t : State}
    (h : RegCommit d v.toNat n s t) : t.reg d = v :=
  BitVec.eq_of_toNat_eq h.regs.1

theorem raise_faultedAs (i : Instr) (k : FaultKind) (info : Word) (s : State) :
    ∃ t, raise i k info s = .next t ∧ FaultedAs k t :=
  have entry := takeFault_entry s k (some i.opcode) info
  ⟨_, rfl, entry.status, entry.kind_eq⟩

theorem exec_set (a b : Operand) (s : State) :
    exec (.set a b) s = withSlot (.set a b) a s fun d => commitReg d (zext16 (s.val b)) 3 s := rfl

/-- Settles O36: SET commits the value of its source operand, which is the literal or the register's content;
a literal destination is stopped at stage 4. -/
theorem setCopiesAValue : Obligations.SetCopiesAValue := by
  constructor
  · intro d b s
    obtain ⟨t, hnext, hcommit⟩ := commitReg_value d (s.val b) 3 s
    refine ⟨t, by rw [exec_set, withSlot_reg, hnext], hcommit, ?_, ?_⟩
    · rintro v rfl
      exact hcommit.reg_eq
    · rintro r rfl
      exact hcommit.reg_eq
  · intro v b s
    rw [exec_set, withSlot_lit]
    exact raise_faultedAs (.set (.lit v) b) .invalidWriteTarget (zext16 v) s

end Sys2Proof.Machine
end

section
/-! PROOFS. The two ends of a register-writing instruction that always has a value, and EQ and GT
(spec/42_compare.md R130, R131). -/

namespace Sys2Proof.Machine

/-- With a register as destination, an instruction whose effect is the value `v` commits `v` (R85, R87). -/
theorem withSlot_reg_commit (i : Instr) (d : RegIdx) (v : Value) (n : Nat) (s : State) :
    ∃ t, withSlot i (.reg d) s (fun d => commitReg d (zext16 v) n s) = .next t ∧
      RegCommit d v.toNat n s t := by
  rw [withSlot_reg]
  exact commitReg_value d v n s

/-- With a literal as destination, no instruction gets past stage 4 (R85, R204). -/
theorem withSlot_lit_faultedAs (i : Instr) (v : Value) (s : State) (rest : RegIdx → Out) :
    ∃ t, withSlot i (.lit v) s rest = .next t ∧ FaultedAs .invalidWriteTarget t := by
  rw [withSlot_lit]
  exact raise_faultedAs i .invalidWriteTarget (zext16 v) s

theorem toNat_aluBit (p : Prop) [Decidable p] : (aluBit (decide p)).toNat = if p then 1 else 0 := by
  by_cases h : p <;> simp [aluBit, h]

/-- Values are equal as words exactly when they are equal as numbers, both being 15 bits wide (R130). -/
theorem toNat_aluEq (vb vc : Value) : (aluEq vb vc).toNat = if vb.toNat = vc.toNat then 1 else 0 := by
  simp only [aluEq, toNat_aluBit, BitVec.toNat_inj]

theorem toNat_aluGt (vb vc : Value) : (aluGt vb vc).toNat = if vb.toNat > vc.toNat then 1 else 0 :=
  toNat_aluBit (vc.toNat < vb.toNat)

theorem exec_eq (a b c : Operand) (s : State) :
    exec (.eq a b c) s =
      withSlot (.eq a b c) a s fun d => commitReg d (zext16 (aluEq (s.val b) (s.val c))) 4 s := rfl

theorem exec_gt (a b c : Operand) (s : State) :
    exec (.gt a b c) s =
      withSlot (.gt a b c) a s fun d => commitReg d (zext16 (aluGt (s.val b) (s.val c))) 4 s := rfl

/-- Settles O41: EQ commits the bit of `aluEq`, which is 1 exactly where the two values are one number; a
literal destination is stopped at stage 4. -/
theorem eqComparesForEquality : Obligations.EqComparesForEquality := by
  constructor
  · intro d b c s
    rw [exec_eq, ← toNat_aluEq]
    exact withSlot_reg_commit (.eq (.reg d) b c) d (aluEq (s.val b) (s.val c)) 4 s
  · intro v b c s
    rw [exec_eq]
    exact withSlot_lit_faultedAs (.eq (.lit v) b c) v s _

/-- Settles O42: GT commits the bit of `aluGt`, which compares the two values as unsigned numbers; a literal
destination is stopped at stage 4. -/
theorem gtComparesUnsigned : Obligations.GtComparesUnsigned := by
  constructor
  · intro d b c s
    rw [exec_gt, ← toNat_aluGt]
    exact withSlot_reg_commit (.gt (.reg d) b c) d (aluGt (s.val b) (s.val c)) 4 s
  · intro v b c s
    rw [exec_gt]
    exact withSlot_lit_faultedAs (.gt (.lit v) b c) v s _

end Sys2Proof.Machine
end

section
/-! PROOFS. The two ends of a jump, taken and in sequence, and JMP, JT and JF (spec/43_jumps.md R140 to R142). -/

namespace Sys2Proof.Machine

/-- A taken jump puts `pc` at the number of its target value: 15 bits, so nothing is cut off (R143). -/
theorem toNat_pc_setPc_zext16 (s : State) (v : Value) : (s.setPc (zext16 v)).pc.toNat = v.toNat := by
  rw [setPc_pc, toNat_zext16]

theorem exec_jmp (a : Operand) (s : State) : exec (.jmp a) s = .next (s.setPc (zext16 (s.val a))) := rfl

section Ends
variable {a : Operand} {s : State}

/-- JT takes the jump on any number but 0 (R141). -/
theorem exec_jt_taken (b : Operand) (ha : (s.val a).toNat ≠ 0) :
    exec (.jt a b) s = .next (s.setPc (zext16 (s.val b))) :=
  if_pos fun h => ha ((toNat_eq_zero (s.val a)).mpr h)

theorem exec_jt_inSequence (b : Operand) (ha : (s.val a).toNat = 0) :
    exec (.jt a b) s = .next (s.advance 3) :=
  if_neg fun h => h ((toNat_eq_zero (s.val a)).mp ha)

/-- JF takes the jump on 0 alone (R142). -/
theorem exec_jf_taken (b : Operand) (ha : (s.val a).toNat = 0) :
    exec (.jf a b) s = .next (s.setPc (zext16 (s.val b))) :=
  if_pos ((toNat_eq_zero (s.val a)).mp ha)

theorem exec_jf_inSequence (b : Operand) (ha : (s.val a).toNat ≠ 0) :
    exec (.jf a b) s = .next (s.advance 3) :=
  if_neg fun h => ha ((toNat_eq_zero (s.val a)).mpr h)

/-- An instruction that ends in a taken jump to `v` commits the number of `v` to `pc` and nothing else. -/
theorem jump_commits {i : Instr} {v : Value} (h : exec i s = .next (s.setPc (zext16 v))) :
    ∃ t, exec i s = .next t ∧ t.pc.toNat = v.toNat ∧ OnlyPc s t :=
  ⟨_, h, toNat_pc_setPc_zext16 s v, onlyPc_setPc s (zext16 v)⟩

/-- An instruction that only advances commits P + n to `pc` and nothing else. -/
theorem advance_commits {i : Instr} {n : Nat} (h : exec i s = .next (s.advance n)) :
    ∃ t, exec i s = .next t ∧ PcPlus n s t ∧ OnlyPc s t :=
  ⟨_, h, pcPlus_advance s n, onlyPc_advance s n⟩

end Ends

/-- Settles O43: JMP always ends in a taken jump, whatever the target value is. -/
theorem jmpGoesToTheValue : Obligations.JmpGoesToTheValue := fun a s => jump_commits (exec_jmp a s)

/-- Settles O44: JT ends in a taken jump where its first value is not 0, and in sequence where it is. -/
theorem jtJumpsOnNonZero : Obligations.JtJumpsOnNonZero :=
  ⟨fun _ b _ ha => jump_commits (exec_jt_taken b ha),
    fun _ b _ ha => advance_commits (exec_jt_inSequence b ha)⟩

/-- Settles O45: JF ends in a taken jump where its first value is 0, and in sequence where it is not; the same
split of that value puts JT at the other end. -/
theorem jfJumpsOnZero : Obligations.JfJumpsOnZero := by
  refine ⟨fun _ b _ ha => jump_commits (exec_jf_taken b ha),
    fun _ b _ ha => advance_commits (exec_jf_inSequence b ha), fun a b s => ?_⟩
  by_cases ha : (s.val a).toNat = 0
  · obtain ⟨t, hjt, hadv, -⟩ := advance_commits (exec_jt_inSequence b ha)
    obtain ⟨u, hjf, hjump, -⟩ := jump_commits (exec_jf_taken b ha)
    exact ⟨t, u, hjt, hjf, .inr ⟨hadv, hjump⟩⟩
  · obtain ⟨t, hjt, hjump, -⟩ := jump_commits (exec_jt_taken b ha)
    obtain ⟨u, hjf, hadv, -⟩ := advance_commits (exec_jf_inSequence b ha)
    exact ⟨t, u, hjt, hjf, .inl ⟨hjump, hadv⟩⟩

end Sys2Proof.Machine
end

section
/-! PROOFS. ADD, MULT, AND, OR and NOT (spec/44_arith_logic.md R150, R151, R153 to R155): what each ALU
operation is as a number and bit by bit, and the instruction that commits it. -/

namespace Sys2Proof.Machine

/-! ### The ALU operations -/

/-- A number reduced modulo 32768 fits in 15 bits, so narrowing it loses nothing (R156). -/
theorem toNat_ofNat_mod_32768 (n : Nat) : (BitVec.ofNat 15 (n % 32768)).toNat = n % 32768 := by
  rw [BitVec.toNat_ofNat]
  exact Nat.mod_mod n 32768

theorem toNat_aluAdd (vb vc : Value) : (aluAdd vb vc).toNat = (vb.toNat + vc.toNat) % 32768 :=
  toNat_ofNat_mod_32768 (vb.toNat + vc.toNat)

theorem toNat_aluMult (vb vc : Value) : (aluMult vb vc).toNat = (vb.toNat * vc.toNat) % 32768 :=
  toNat_ofNat_mod_32768 (vb.toNat * vc.toNat)

theorem toNat_aluAnd (vb vc : Value) : (aluAnd vb vc).toNat = vb.toNat &&& vc.toNat :=
  BitVec.toNat_and vb vc

theorem getLsbD_aluAnd (vb vc : Value) (k : Nat) :
    (aluAnd vb vc).getLsbD k = (vb.getLsbD k && vc.getLsbD k) :=
  BitVec.getLsbD_and

theorem toNat_aluOr (vb vc : Value) : (aluOr vb vc).toNat = vb.toNat ||| vc.toNat :=
  BitVec.toNat_or vb vc

theorem getLsbD_aluOr (vb vc : Value) (k : Nat) :
    (aluOr vb vc).getLsbD k = (vb.getLsbD k || vc.getLsbD k) :=
  BitVec.getLsbD_or

/-- Inverting all 15 bits is subtracting from the number with all of them set, 32767 (R155). -/
theorem toNat_aluNot (vb : Value) : (aluNot vb).toNat = 32767 - vb.toNat :=
  BitVec.toNat_not

/-- Only the bits below the register's width are inverted: a value has no bit 15 (R155). -/
theorem getLsbD_aluNot (vb : Value) {k : Nat} (hk : k < 15) : (aluNot vb).getLsbD k = !vb.getLsbD k := by
  simp [aluNot, hk]

/-! ### The two ends -/

section Ends
variable {i : Instr} {s : State}

/-- An instruction that writes the value `v` to its dest-reg commits the number of `v` where that is a
register. -/
theorem value_commits {d : RegIdx} {v : Value} {n : Nat}
    (h : exec i s = withSlot i (.reg d) s fun d => commitReg d (zext16 v) n s) :
    ∃ t, exec i s = .next t ∧ RegCommit d v.toNat n s t :=
  h ▸ withSlot_reg_commit i d v n s

/-- An instruction with a dest-reg ends in InvalidWriteTarget where that is a literal. -/
theorem literal_faults {v : Value} {rest : RegIdx → Out} (h : exec i s = withSlot i (.lit v) s rest) :
    ∃ t, exec i s = .next t ∧ FaultedAs .invalidWriteTarget t :=
  h ▸ withSlot_lit_faultedAs i v s rest

end Ends

/-! ### The instructions -/

section Arms
variable (a b c : Operand) (s : State)

theorem exec_add : exec (.add a b c) s =
    withSlot (.add a b c) a s fun d => commitReg d (zext16 (aluAdd (s.val b) (s.val c))) 4 s := rfl

theorem exec_mult : exec (.mult a b c) s =
    withSlot (.mult a b c) a s fun d => commitReg d (zext16 (aluMult (s.val b) (s.val c))) 4 s := rfl

theorem exec_and : exec (.and a b c) s =
    withSlot (.and a b c) a s fun d => commitReg d (zext16 (aluAnd (s.val b) (s.val c))) 4 s := rfl

theorem exec_or : exec (.or a b c) s =
    withSlot (.or a b c) a s fun d => commitReg d (zext16 (aluOr (s.val b) (s.val c))) 4 s := rfl

theorem exec_not : exec (.not a b) s =
    withSlot (.not a b) a s fun d => commitReg d (zext16 (aluNot (s.val b))) 3 s := rfl

end Arms

/-- Settles O46: ADD commits `aluAdd`, which is the exact sum reduced once; a literal destination is stopped
at stage 4. -/
theorem addIsTheSumModulo32768 : Obligations.AddIsTheSumModulo32768 := by
  refine ⟨fun a b c => rfl, fun d b c s => ?_, fun v b c s => literal_faults (exec_add (.lit v) b c s)⟩
  rw [← toNat_aluAdd]
  exact value_commits (exec_add (.reg d) b c s)

/-- Settles O47: MULT commits `aluMult`, which is the exact product reduced once; a literal destination is
stopped at stage 4. -/
theorem multIsTheProductModulo32768 : Obligations.MultIsTheProductModulo32768 := by
  refine ⟨fun d b c s => ?_, fun v b c s => literal_faults (exec_mult (.lit v) b c s)⟩
  rw [← toNat_aluMult]
  exact value_commits (exec_mult (.reg d) b c s)

/-- Settles O49: AND commits `aluAnd`, and the register then holds that value, bit for bit; a literal
destination is stopped at stage 4. -/
theorem andIsBitwise : Obligations.AndIsBitwise := by
  refine ⟨fun d b c s => ?_, fun v b c s => literal_faults (exec_and (.lit v) b c s)⟩
  obtain ⟨t, hnext, hcommit⟩ := value_commits (exec_and (.reg d) b c s)
  exact ⟨t, hnext, toNat_aluAnd .. ▸ hcommit, fun k => hcommit.reg_eq ▸ getLsbD_aluAnd _ _ k⟩

/-- Settles O50: OR commits `aluOr`, and the register then holds that value, bit for bit; a literal
destination is stopped at stage 4. -/
theorem orIsBitwise : Obligations.OrIsBitwise := by
  refine ⟨fun d b c s => ?_, fun v b c s => literal_faults (exec_or (.lit v) b c s)⟩
  obtain ⟨t, hnext, hcommit⟩ := value_commits (exec_or (.reg d) b c s)
  exact ⟨t, hnext, toNat_aluOr .. ▸ hcommit, fun k => hcommit.reg_eq ▸ getLsbD_aluOr _ _ k⟩

/-- Settles O51: NOT commits `aluNot`, and the register then holds that value, bit for bit; a literal
destination is stopped at stage 4. -/
theorem notInvertsFifteenBits : Obligations.NotInvertsFifteenBits := by
  refine ⟨fun d b s => ?_, fun v b s => literal_faults (exec_not (.lit v) b s)⟩
  obtain ⟨t, hnext, hcommit⟩ := value_commits (exec_not (.reg d) b s)
  exact ⟨t, hnext, toNat_aluNot _ ▸ hcommit, fun k hk => hcommit.reg_eq ▸ getLsbD_aluNot _ hk⟩

end Sys2Proof.Machine
end

section
/-! PROOFS. The decoder against the encoder (spec/30_encoding.md R80 to R91): the words of an instruction, the
round trip both ways, the opcode word and the operand words. -/

namespace Sys2Proof

open Sys2Proof.Machine

/-! ### The words of an instruction -/

/-- The law of `Laws/PerInstr.lean`, for whichever instruction it is. -/
theorem opcodeWord (i : Instr) : Laws.OpcodeWord.Statement i := by
  cases i with
  | halt => exact Laws.OpcodeWord.halt
  | set a b => exact Laws.OpcodeWord.set a b
  | push a => exact Laws.OpcodeWord.push a
  | pop a => exact Laws.OpcodeWord.pop a
  | eq a b c => exact Laws.OpcodeWord.eq a b c
  | gt a b c => exact Laws.OpcodeWord.gt a b c
  | jmp a => exact Laws.OpcodeWord.jmp a
  | jt a b => exact Laws.OpcodeWord.jt a b
  | jf a b => exact Laws.OpcodeWord.jf a b
  | add a b c => exact Laws.OpcodeWord.add a b c
  | mult a b c => exact Laws.OpcodeWord.mult a b c
  | mod a b c => exact Laws.OpcodeWord.mod a b c
  | and a b c => exact Laws.OpcodeWord.and a b c
  | or a b c => exact Laws.OpcodeWord.or a b c
  | not a b => exact Laws.OpcodeWord.not a b
  | rmem a b => exact Laws.OpcodeWord.rmem a b
  | wmem a b => exact Laws.OpcodeWord.wmem a b
  | call a => exact Laws.OpcodeWord.call a
  | ret => exact Laws.OpcodeWord.ret
  | out a => exact Laws.OpcodeWord.out a
  | inp a => exact Laws.OpcodeWord.inp a
  | noop => exact Laws.OpcodeWord.noop

theorem opcode_le (i : Instr) : i.opcode.toNat ≤ 21 := (opcodeWord i).1

theorem encode_eq (i : Instr) : encode i = i.opcode :: (operandsOf i).map Operand.encode := (opcodeWord i).2

/-- The opcode table gives every instruction's opcode the number of its operands (R80, R82). -/
theorem arity_opcode (i : Instr) : arity i.opcode = some (operandsOf i).length := by
  cases i <;> rfl

theorem length_operandsOf (i : Instr) : (operandsOf i).length ≤ 3 := by
  cases i <;> simp [operandsOf, Instr.dest, Instr.sources]

theorem length_encode (i : Instr) : (encode i).length = 1 + (operandsOf i).length := by
  rw [encode_eq, List.length_cons, List.length_map, Nat.add_comm]

/-! ### The round trip -/

/-- Decoding an instruction's words gives it back: the opcode picks its row, and each operand word is read back
(R80, R83). -/
theorem decode_encode_append (i : Instr) (rest : List Word) : decode (encode i ++ rest) = .ok (i, rest) := by
  cases i <;> simp [encode, decode, shapeOf, decodeShape]

/-- The row `sh` of the opcode table stands at the opcode its instructions are encoded with (R82). -/
def Shape.EncodedWith (op : Word) : Shape → Prop
  | .zero i => encode i = [op]
  | .one f => ∀ a, encode (f a) = [op, a.encode]
  | .two f => ∀ a b, encode (f a b) = [op, a.encode, b.encode]
  | .three f => ∀ a b c, encode (f a b c) = [op, a.encode, b.encode, c.encode]

/-- A recognised opcode word is one of 22 words, so that what is said of it can be read off number by number. -/
theorem eq_ofNat_of_le {op : Word} (h : op.toNat ≤ 21) : ∃ n : Fin 22, op = BitVec.ofNat 16 n :=
  ⟨⟨op.toNat, by omega⟩, by simp⟩

theorem encodedWith_of_shapeOf {op : Word} {sh : Shape} (h : shapeOf op = some sh) : sh.EncodedWith op := by
  have hle : op.toNat ≤ 21 := by
    by_contra hgt
    rw [shapeOf_none.2 (by omega)] at h
    cases h
  obtain ⟨n, rfl⟩ := eq_ofNat_of_le hle
  fin_cases n <;> cases h <;> simp [Shape.EncodedWith, encode]

/-- Words that decode to an instruction begin with its encoding (R90, R91). -/
theorem eq_encode_append_of_decode {ws rest : List Word} {i : Instr} (h : decode ws = .ok (i, rest)) :
    ws = encode i ++ rest := by
  cases ws with
  | nil => cases h
  | cons op ws =>
    cases hsh : shapeOf op with
    | none => simp [decode, hsh] at h
    | some sh =>
      have henc := encodedWith_of_shapeOf hsh
      simp only [decode, hsh] at h
      cases sh with
      | zero j =>
        cases h
        rw [henc]
        rfl
      | one f =>
        obtain ⟨a, rfl, rfl⟩ := decodeShape_one_ok h
        rw [henc]
        rfl
      | two f =>
        obtain ⟨a, b, rfl, rfl⟩ := decodeShape_two_ok h
        rw [henc]
        rfl
      | three f =>
        obtain ⟨a, b, c, rfl, rfl⟩ := decodeShape_three_ok h
        rw [henc]
        rfl

/-- What words that decode begin with, the opcode word apart. -/
theorem decode_cons_ok {op : Word} {ws rest : List Word} {i : Instr} (h : decode (op :: ws) = .ok (i, rest)) :
    op = i.opcode ∧ ws = (operandsOf i).map Operand.encode ++ rest := by
  have heq := eq_encode_append_of_decode h
  rw [encode_eq, List.cons_append] at heq
  exact List.cons.inj heq

theorem toNat_encode_lit (v : Value) : (Operand.lit v).encode.toNat = v.toNat := toNat_zext16 v

theorem toNat_encode_reg (r : RegIdx) : (Operand.reg r).encode.toNat = 32768 + r.val := by
  have := r.isLt
  simp [Operand.encode]
  omega

/-- Settles O1: the opcode picks the instruction's row and every operand word is read back; the words themselves
are the table's, row by row. -/
theorem decodeReadsBackEveryEncoding : Obligations.DecodeReadsBackEveryEncoding := by
  refine ⟨decode_encode_append, fun a b c => ?_, toNat_encode_lit, toNat_encode_reg⟩
  and_intros <;> rfl

/-- Settles O2: each row of the opcode table stands at the opcode its instructions are encoded with, and each
operand decoded is the one its word encodes. -/
theorem encodingIsTheOnlyWordsOfAnInstruction : Obligations.EncodingIsTheOnlyWordsOfAnInstruction :=
  fun _ _ _ h => eq_encode_append_of_decode h

/-! ### The opcode word -/

theorem decode_invalidOpcode {op : Word} (ws : List Word) (h : 21 < op.toNat) :
    decode (op :: ws) = .error (.invalidOpcode op) := by
  simp [decode, shapeOf_none.2 h]

/-- `decode` reports InvalidOpcode for nothing but its first word: the operands raise other events (R81). -/
theorem of_decode_invalidOpcode {op op' : Word} {ws : List Word}
    (h : decode (op :: ws) = .error (.invalidOpcode op')) : op' = op ∧ 21 < op.toNat := by
  cases hsh : shapeOf op with
  | none =>
    simp only [decode, hsh, Except.error.injEq, DecodeError.invalidOpcode.injEq] at h
    exact ⟨h.symm, shapeOf_none.1 hsh⟩
  | some sh =>
    simp only [decode, hsh] at h
    obtain ⟨_, -, he⟩ | ⟨_, -, he⟩ := decodeShape_error h <;> cases he

theorem toNat_extractLsb' (w : Word) (start len : Nat) :
    (w.extractLsb' start len).toNat = w.toNat / 2 ^ start % 2 ^ len := by
  rw [BitVec.extractLsb'_toNat, Nat.shiftRight_eq_div_pow]

/-- A field of a word is 0 as bits exactly where it is 0 as a number. -/
theorem extractLsb'_eq_zero (w : Word) (start len : Nat) :
    w.extractLsb' start len = 0 ↔ w.toNat / 2 ^ start % 2 ^ len = 0 := by
  rw [← toNat_extractLsb', ← BitVec.toNat_inj]
  simp

/-- Settles O3: `decode` looks the whole word up in a table that ends at 21, and the two fields of the word are
its number divided by 32 and the remainder. -/
theorem opcodeWordIsCheckedWhole : Obligations.OpcodeWordIsCheckedWhole := by
  refine ⟨fun op ws h => decode_invalidOpcode ws h, fun op ws i rest h => ?_,
    fun op op' ws h => of_decode_invalidOpcode h, fun op => ?_, fun op h => ?_⟩
  · obtain ⟨rfl, -⟩ := decode_cons_ok h
    exact ⟨opcode_le i, rfl⟩
  · rw [extractLsb'_eq_zero, toNat_extractLsb']
    have := op.isLt
    omega
  · rw [toNat_extractLsb']
    omega

theorem arity_eq_none {op : Word} (h : 21 < op.toNat) : arity op = none := by
  simp [arity, shapeOf_none.2 h]

/-- A row of the format table (R80) is checked on the 22 recognised opcode numbers. -/
theorem arity_eq_some_iff {n : Nat} {row : List Nat} (hle : ∀ k ∈ row, k ≤ 21)
    (hrow : ∀ k : Fin 22, arity (BitVec.ofNat 16 k) = some n ↔ (BitVec.ofNat 16 k : Word).toNat ∈ row)
    (op : Word) : arity op = some n ↔ op.toNat ∈ row := by
  by_cases hop : op.toNat ≤ 21
  · obtain ⟨k, rfl⟩ := eq_ofNat_of_le hop
    exact hrow k
  · rw [arity_eq_none (by omega)]
    exact iff_of_false (by simp) fun hmem => hop (hle _ hmem)

/-- Settles O7: the four rows of the format table are read off the opcode table number by number, and the words
decoding takes are the operand words of the instruction it answers. -/
theorem lengthIsFixedByTheOpcodeWord : Obligations.LengthIsFixedByTheOpcodeWord := by
  refine ⟨arity_eq_some_iff (by decide) (by decide), arity_eq_some_iff (by decide) (by decide),
    arity_eq_some_iff (by decide) (by decide), arity_eq_some_iff (by decide) (by decide),
    fun op ws rest i h => ?_⟩
  obtain ⟨rfl, rfl⟩ := decode_cons_ok h
  refine ⟨_, arity_opcode i, by simp, ?_⟩
  rw [List.drop_left' (by simp)]

/-! ### The operand words -/

theorem decodeOperand_of_le {w : Word} (h : w.toNat ≤ 32767) : decodeOperand w = some (.lit (low15 w)) := by
  simp [decodeOperand, h]

theorem decodeOperand_of_reg (r : RegIdx) {w : Word} (h : w.toNat = 32768 + r.val) :
    decodeOperand w = some (.reg r) := by
  have hw : w = (Operand.reg r).encode := BitVec.eq_of_toNat_eq (by rw [h, toNat_encode_reg])
  rw [hw, decodeOperand_encode]

theorem getLsbD_15 (w : Word) : w.getLsbD 15 = decide (32768 ≤ w.toNat) := by
  have := w.isLt
  rw [BitVec.getLsbD, Nat.testBit_eq_decide_div_mod_eq]
  simp only [decide_eq_decide]
  omega

/-- Settles O4: the three ranges are the three branches of the operand decoder, and bit 15 and bits 14 to 3 are
the number's quotients by 32768 and by 8. -/
theorem operandWordsAreClassified : Obligations.OperandWordsAreClassified := by
  refine ⟨fun w h => ⟨low15 w, decodeOperand_of_le h, ?_⟩,
    fun w hlo hhi => ⟨⟨w.toNat - 32768, by omega⟩, decodeOperand_of_reg _ ?_, ?_⟩,
    fun w h => decodeOperand_none.2 h, fun w => ?_, fun w => ?_⟩
  · rw [toNat_low15]
    omega
  · simp only
    omega
  · simp only
    omega
  · rw [getLsbD_15, decide_eq_false_iff_not]
    omega
  · have := w.isLt
    rw [getLsbD_15, decide_eq_true_eq, extractLsb'_eq_zero]
    omega

/-- Settles O6: each list of words is evaluated. -/
theorem decodesTheDocumentsWords : Obligations.DecodesTheDocumentsWords :=
  ⟨rfl, rfl, rfl, rfl, rfl, rfl, by decide, by decide, by decide⟩

end Sys2Proof
end

section
/-! PROOFS. The first event that stops an instruction's operands (spec/30_encoding.md R87 stage 3, R209 item 3). -/

namespace Sys2Proof

/-- The first event among `n` operands from number `k` on: a missing word, or a word that is no operand. -/
def operandEvent (op : Word) : Nat → Nat → List Word → Option DecodeError
  | _, 0, _ => none
  | k, _ + 1, [] => some (.operandMissing op k)
  | k, n + 1, w :: ws =>
    match decodeOperand w with
    | none => some (.invalidOperand op w)
    | some _ => operandEvent op (k + 1) n ws

/-- How many operands a row of the opcode table takes. -/
def Shape.operands : Shape → Nat
  | .zero _ => 0
  | .one _ => 1
  | .two _ => 2
  | .three _ => 3

theorem arity_eq_map (op : Word) : arity op = (shapeOf op).map Shape.operands := by
  unfold arity
  split <;> simp_all [Shape.operands]

theorem arity_le {op : Word} {n : Nat} (h : arity op = some n) : n ≤ 3 := by
  rw [arity_eq_map, Option.map_eq_some_iff] at h
  obtain ⟨sh, -, rfl⟩ := h
  cases sh <;> simp [Shape.operands]

/-- What one more operand does to the events: its own, or those of the operands after it. -/
theorem operandEvent_succ (op : Word) (k n : Nat) (ws : List Word) :
    operandEvent op k (n + 1) ws =
      match takeOperand op k ws with
      | .error e => some e
      | .ok (_, rest) => operandEvent op (k + 1) n rest := by
  cases ws with
  | nil => rfl
  | cons w ws => cases hd : decodeOperand w <;> simp [operandEvent, takeOperand, hd]

/-- Stage 3 of a whole instruction is stopped by the first event of its operands. -/
theorem decodeShape_error_iff {op : Word} {ws : List Word} {sh : Shape} {e : DecodeError} :
    decodeShape op ws sh = .error e ↔ operandEvent op 0 sh.operands ws = some e := by
  cases sh with
  | zero i => simp [decodeShape, Shape.operands, operandEvent]
  | one f =>
    simp only [decodeShape, Shape.operands, operandEvent_succ]
    split <;> simp_all [operandEvent]
  | two f =>
    simp only [decodeShape, Shape.operands, operandEvent_succ]
    split
    · simp_all
    · split <;> simp_all [operandEvent]
  | three f =>
    simp only [decodeShape, Shape.operands, operandEvent_succ]
    split
    · simp_all
    · split
      · simp_all
      · split <;> simp_all [operandEvent]

/-- After a recognised opcode word, decoding is stopped by the first event of the operands and by nothing else. -/
theorem decode_error_iff {op : Word} {n : Nat} (hn : arity op = some n) {ws : List Word} {e : DecodeError} :
    decode (op :: ws) = .error e ↔ operandEvent op 0 n ws = some e := by
  rw [arity_eq_map, Option.map_eq_some_iff] at hn
  obtain ⟨sh, hsh, rfl⟩ := hn
  rw [← decodeShape_error_iff, decode, hsh]

/-- Operands that are there and valid raise no event, so the search goes on past them. -/
theorem operandEvent_skip (op : Word) (m n : Nat) {k : Nat} {ws : List Word}
    (hvalid : ∀ j, j < k → ∃ w o, ws[j]? = some w ∧ decodeOperand w = some o) :
    operandEvent op m (k + n) ws = operandEvent op (m + k) n (ws.drop k) := by
  induction k generalizing m ws with
  | zero => simp
  | succ k ih =>
    obtain ⟨w, o, hw, ho⟩ := hvalid 0 (Nat.succ_pos k)
    cases ws with
    | nil => cases hw
    | cons w' ws =>
      cases hw
      have hrest := ih (m + 1) (ws := ws) fun j hj => hvalid (j + 1) (Nat.succ_lt_succ hj)
      rw [show k + 1 + n = k + n + 1 by omega, show m + (k + 1) = m + 1 + k by omega, List.drop_succ_cons,
        ← hrest]
      simp only [operandEvent, ho]

/-- Settles O5: the operands before number `k` are skipped, and `k` itself raises the event. -/
theorem leftmostOperandEventIsReported : Obligations.LeftmostOperandEventIsReported := by
  intro op ws n k hn hk hvalid
  obtain ⟨r, rfl⟩ : ∃ r, n = k + (r + 1) := ⟨n - k - 1, by omega⟩
  have hdec : ∀ e, decode (op :: ws) = .error e ↔ operandEvent op k (r + 1) (ws.drop k) = some e := fun e => by
    rw [decode_error_iff hn, operandEvent_skip op 0 (r + 1) hvalid, Nat.zero_add]
  refine ⟨fun hmissing => (hdec _).2 ?_, fun w hw hinvalid => (hdec _).2 ?_⟩
  · rw [List.drop_eq_nil_of_le (List.getElem?_eq_none_iff.1 hmissing), operandEvent]
  · obtain ⟨hlt, rfl⟩ := List.getElem?_eq_some_iff.1 hw
    rw [List.drop_eq_getElem_cons hlt, operandEvent, hinvalid]

end Sys2Proof
end

section
/-! PROOFS. Fetching (spec/30_encoding.md R86, R87 stages 1 to 3): what a fetched instruction and a stopped fetch
say of the cells from `pc` on, and the staged loop. -/

namespace Sys2Proof.Machine

variable {s : State}

/-! ### The fetch and the window -/

theorem fetch_eq_ok_iff {i : Instr} : s.fetch = .ok i ↔ ∃ rest, decode s.fetchWindow = .ok (i, rest) := by
  unfold State.fetch
  split <;> simp_all

theorem fetch_eq_error_iff {e : DecodeError} : s.fetch = .error e ↔ decode s.fetchWindow = .error e := by
  unfold State.fetch
  split <;> simp_all

/-- Fetching looks at `pc` and memory alone. -/
theorem fetch_congr {t : State} (hpc : t.pc = s.pc) (hmem : t.mem = s.mem) : t.fetch = s.fetch := by
  unfold State.fetch State.fetchWindow
  rw [hpc, hmem]

theorem getElem?_fetchWindow {k : Nat} (hk : k < 4) : s.fetchWindow[k]? = s.mem.read (s.pc.toNat + k) := by
  rw [State.fetchWindow, getElem?_window, if_pos hk]

theorem window_succ_of_read {m : Memory} {addr : Nat} {w : Word} (h : m.read addr = some w) (n : Nat) :
    m.window addr (n + 1) = w :: m.window (addr + 1) n := by
  rw [Memory.window, h]

theorem window_of_read_none {m : Memory} {addr : Nat} (h : m.read addr = none) (n : Nat) :
    m.window addr n = [] := by
  cases n with
  | zero => rfl
  | succ n => rw [Memory.window, h]

theorem fetchWindow_of_read {op : Word} (h : s.mem.read s.pc.toNat = some op) :
    s.fetchWindow = op :: s.mem.window (s.pc.toNat + 1) 3 :=
  window_succ_of_read h 3

theorem fetchWindow_of_size_le (h : s.mem.size ≤ s.pc.toNat) : s.fetchWindow = [] :=
  window_of_read_none ((read_none s.mem s.pc.toNat).2 h) 4

/-- The fetch answers an instruction exactly where its words stand in memory from `pc` on (R80, R86). -/
theorem fetch_eq_ok_iff_reads {i : Instr} :
    s.fetch = .ok i ↔ ∀ k w, (encode i)[k]? = some w → s.mem.read (s.pc.toNat + k) = some w := by
  have hlen : (encode i).length ≤ 4 := by
    have := length_operandsOf i
    rw [length_encode]
    omega
  have hshort : ∀ k w, (encode i)[k]? = some w → k < 4 := fun k w hk => by
    obtain ⟨hlt, -⟩ := List.getElem?_eq_some_iff.1 hk
    omega
  rw [fetch_eq_ok_iff]
  constructor
  · rintro ⟨rest, hdec⟩ k w hk
    rw [← getElem?_fetchWindow (hshort k w hk), eq_encode_append_of_decode hdec,
      List.getElem?_append_left (List.getElem?_eq_some_iff.1 hk).1, hk]
  · intro hreads
    have hprefix : encode i <+: s.fetchWindow := by
      rw [List.prefix_iff_getElem?]
      intro k hk
      have hw := List.getElem?_eq_getElem hk
      rw [getElem?_fetchWindow (hshort k _ hw), hreads k _ hw]
    obtain ⟨rest, hrest⟩ := hprefix
    exact ⟨rest, by rw [← hrest, decode_encode_append]⟩

/-- All cells of a fetched instruction exist, so `pc` past it is at most `MEM_SIZE` (R25). -/
theorem pc_add_length_le_of_fetch {i : Instr} (h : s.fetch = .ok i) :
    s.pc.toNat + (encode i).length ≤ s.mem.size := by
  have hlen := length_encode i
  have hk : (encode i).length - 1 < (encode i).length := by omega
  have hread := fetch_eq_ok_iff_reads.1 h _ _ (List.getElem?_eq_getElem hk)
  have := (read_isSome s.mem _).1 (Option.isSome_of_eq_some hread)
  omega

/-! ### The staged loop -/

/-- Where the operands' words stand in memory, the staged loop classifies them one by one. -/
theorem stagedOperands_eq_ok {m : Memory} {op : Word} {p k : Nat} {os : List Operand}
    (h : ∀ j w, (os.map Operand.encode)[j]? = some w → m.read (p + 1 + k + j) = some w) :
    stagedOperands m op p k os.length = .ok os := by
  induction os generalizing k with
  | nil => rfl
  | cons o os ih =>
    have hrest := ih (k := k + 1) fun j w hj => by
      rw [show p + 1 + (k + 1) + j = p + 1 + k + (j + 1) by omega]
      exact h (j + 1) w hj
    have hread : m.read (p + 1 + k) = some o.encode := h 0 _ rfl
    simp only [List.length_cons, stagedOperands, hread, decodeOperand_encode, hrest]

/-- The first event among the words of a long enough window is the one that ends the staged loop. -/
theorem stagedOperands_eq_error {m : Memory} {op : Word} {p k n : Nat} (r : Nat) {e : DecodeError}
    (h : operandEvent op k n (m.window (p + 1 + k) (n + r)) = some e) :
    stagedOperands m op p k n = .error e := by
  induction n generalizing k with
  | zero => simp [operandEvent] at h
  | succ n ih =>
    rw [Nat.add_right_comm n 1 r] at h
    cases hr : m.read (p + 1 + k) with
    | none =>
      rw [window_of_read_none hr] at h
      simp only [operandEvent, Option.some.injEq] at h
      simp only [stagedOperands, hr, h]
    | some w =>
      rw [window_succ_of_read hr] at h
      cases hd : decodeOperand w with
      | none =>
        simp only [operandEvent, hd, Option.some.injEq] at h
        simp only [stagedOperands, hr, hd, h]
      | some o =>
        simp only [operandEvent, hd] at h
        simp only [stagedOperands, hr, hd, ih h]

theorem stagedFetch_of_fetch_ok {i : Instr} (h : s.fetch = .ok i) :
    stagedFetch s.mem s.pc.toNat = .ok (i.opcode, operandsOf i) := by
  have hreads := fetch_eq_ok_iff_reads.1 h
  rw [encode_eq] at hreads
  have hop : s.mem.read s.pc.toNat = some i.opcode := hreads 0 _ rfl
  have hos : stagedOperands s.mem i.opcode s.pc.toNat 0 (operandsOf i).length = .ok (operandsOf i) :=
    stagedOperands_eq_ok fun j w hj => by
      rw [Nat.add_zero, Nat.add_assoc, Nat.add_comm 1 j]
      exact hreads (j + 1) w hj
  simp only [stagedFetch, hop, arity_opcode, hos]

theorem stagedFetch_of_fetch_error {e : DecodeError} (h : s.fetch = .error e) :
    stagedFetch s.mem s.pc.toNat = .error e := by
  rw [fetch_eq_error_iff] at h
  cases hr : s.mem.read s.pc.toNat with
  | none =>
    rw [fetchWindow_of_size_le ((read_none _ _).1 hr)] at h
    cases h
    simp only [stagedFetch, hr]
  | some op =>
    rw [fetchWindow_of_read hr] at h
    cases hn : arity op with
    | none =>
      rw [arity_eq_map, Option.map_eq_none_iff] at hn
      simp only [decode, hn, Except.error.injEq] at h
      simp only [stagedFetch, hr, arity_eq_map, hn, Option.map_none, h]
    | some n =>
      rw [decode_error_iff hn] at h
      have hle := arity_le hn
      have hos := stagedOperands_eq_error (p := s.pc.toNat) (k := 0) (3 - n)
        (by rwa [Nat.add_zero, Nat.add_sub_cancel' hle])
      simp only [stagedFetch, hr, hn, hos]

/-- Settles O11: a fetched instruction's words stand where the stages read them, and a stopped fetch is stopped
by the first event among the words of the window. -/
theorem fetchFollowsTheStages : Obligations.FetchFollowsTheStages :=
  fun _ => ⟨fun _ h => stagedFetch_of_fetch_ok h, fun _ h => stagedFetch_of_fetch_error h⟩

/-- What an event that stops a fetch at `p` says of memory (R202, R203, R206). -/
def EventHolds (m : Memory) (p : Nat) : DecodeError → Prop
  | .noOpcode => m.size ≤ p
  | .invalidOpcode op => m.read p = some op ∧ 21 < op.toNat
  | .operandMissing op k => m.read p = some op ∧ op.toNat ≤ 21 ∧ k < 3 ∧ m.size ≤ p + 1 + k
  | .invalidOperand op w => op.toNat ≤ 21 ∧ 32776 ≤ w.toNat

theorem opcode_le_of_arity {op : Word} {n : Nat} (h : arity op = some n) : op.toNat ≤ 21 := by
  by_contra hgt
  rw [arity_eq_none (by omega)] at h
  cases h

theorem eventHolds_of_stagedOperands {m : Memory} {op : Word} {p k n : Nat} {e : DecodeError}
    (hop : m.read p = some op) (hle : op.toNat ≤ 21) (hk : k + n ≤ 3)
    (h : stagedOperands m op p k n = .error e) : EventHolds m p e := by
  induction n generalizing k with
  | zero => cases h
  | succ n ih =>
    rw [stagedOperands] at h
    split at h
    next hr =>
      cases h
      exact ⟨hop, hle, by omega, (read_none _ _).1 hr⟩
    next w hr =>
      split at h
      next hd =>
        cases h
        exact ⟨hle, decodeOperand_none.1 hd⟩
      next =>
        split at h
        next e' hos =>
          cases h
          exact ih (by omega) hos
        next => cases h

/-- Everything an event that stops the fetch says, read off the stages. -/
theorem eventHolds_of_fetch_error {e : DecodeError} (h : s.fetch = .error e) :
    EventHolds s.mem s.pc.toNat e := by
  have hstaged := stagedFetch_of_fetch_error h
  rw [stagedFetch] at hstaged
  split at hstaged
  next hr =>
    cases hstaged
    exact (read_none _ _).1 hr
  next op hr =>
    split at hstaged
    next hn =>
      cases hstaged
      rw [arity_eq_map, Option.map_eq_none_iff, shapeOf_none] at hn
      exact ⟨hr, hn⟩
    next n hn =>
      split at hstaged
      next e' hos =>
        cases hstaged
        exact eventHolds_of_stagedOperands hr (opcode_le_of_arity hn)
          (by have := arity_le hn; omega) hos
      next => cases hstaged

/-! ### The step -/

/-- Settles O8: the window's decoding is the fetch. -/
theorem stepRunsDecodedInstruction : Obligations.StepRunsDecodedInstruction :=
  fun _ _ rest hrun hdec => step_of_fetch_ok hrun (fetch_eq_ok_iff.2 ⟨rest, hdec⟩)

/-- Settles O9: an instruction whose words stand from `pc` on is the one fetched. -/
theorem stepRunsTheInstructionStandingAtPc : Obligations.StepRunsTheInstructionStandingAtPc :=
  fun _ _ hrun hreads => step_of_fetch_ok hrun (fetch_eq_ok_iff_reads.2 hreads)

/-- Settles O12: outside Running the step answers its state. -/
theorem endedRunIsFrozen : Obligations.EndedRunIsFrozen := fun _ hover => step_of_over hover

/-- An opcode fetch past the end of memory is AddressOutOfRange with no opcode (R206 (1)). -/
theorem step_of_size_le_pc (hrun : s.status = .running) (h : s.mem.size ≤ s.pc.toNat) :
    ∃ t, step s = .next t ∧ FaultEntry .addressOutOfRange none s.pc.toNat s t := by
  have hfetch : s.fetch = .error .noOpcode := by
    rw [fetch_eq_error_iff, fetchWindow_of_size_le h]
    rfl
  exact ⟨_, step_of_fetch_error hrun hfetch, takeFault_entry s .addressOutOfRange none s.pc⟩

/-- An unrecognised opcode word is InvalidOpcode with that word (R202). -/
theorem step_of_opcode_gt {op : Word} (hrun : s.status = .running) (hread : s.mem.read s.pc.toNat = some op)
    (h : 21 < op.toNat) : ∃ t, step s = .next t ∧ FaultEntry .invalidOpcode (some op) op.toNat s t := by
  have hfetch : s.fetch = .error (.invalidOpcode op) := by
    rw [fetch_eq_error_iff, fetchWindow_of_read hread, decode_invalidOpcode _ h]
  exact ⟨_, step_of_fetch_error hrun hfetch, takeFault_entry s .invalidOpcode (some op) op⟩

/-- The cell of operand `k` is at P + 1 + k, which the 16 bits of a word hold in a memory of at most 32768 cells. -/
theorem toNat_nextPc {n : Nat} (hsize : s.mem.size ≤ maxCells) (hpc : s.pc.toNat ≤ s.mem.size) (hn : n < 32768) :
    (s.nextPc n).toNat = s.pc.toNat + n := by
  have : s.mem.size ≤ 32768 := hsize
  rw [State.nextPc, BitVec.toNat_add, BitVec.toNat_ofNat]
  omega

theorem getElem?_window_three {m : Memory} {addr k : Nat} (hk : k < 3) :
    (m.window addr 3)[k]? = m.read (addr + k) := by
  rw [getElem?_window, if_pos hk]

/-- Settles O10: the opcode word is the first of the window, and the leftmost event among the three words after
it is the one `decode` reports. -/
theorem stepRaisesFetchAndDecodeFaults : Obligations.StepRaisesFetchAndDecodeFaults := by
  refine ⟨fun s hrun h => step_of_size_le_pc hrun h, fun s op hrun hread h => step_of_opcode_gt hrun hread h,
    fun s op n k hrun hsize hread hn hk hvalid => ?_⟩
  have hk3 : k < 3 := Nat.lt_of_lt_of_le hk (arity_le hn)
  obtain ⟨hmissing, hinvalid⟩ :=
    leftmostOperandEventIsReported op (s.mem.window (s.pc.toNat + 1) 3) n k hn hk fun j hj => by
      rw [getElem?_window_three (hj.trans hk3)]
      exact hvalid j hj
  rw [getElem?_window_three hk3, ← fetchWindow_of_read hread, ← fetch_eq_error_iff] at hmissing
  refine ⟨fun hend => ?_, fun w hw hgt => ?_⟩
  · have hfetch := hmissing ((read_none _ _).2 hend)
    have hlt := (read_isSome s.mem _).1 (Option.isSome_of_eq_some hread)
    have hentry := takeFault_entry s .addressOutOfRange (some op) (s.nextPc (1 + k))
    rw [toNat_nextPc hsize hlt.le (by omega), ← Nat.add_assoc] at hentry
    exact ⟨_, step_of_fetch_error hrun hfetch, hentry⟩
  · have hdec := hinvalid w (by rw [getElem?_window_three hk3, hw]) (decodeOperand_none.2 hgt)
    rw [← fetchWindow_of_read hread, ← fetch_eq_error_iff] at hdec
    exact ⟨_, step_of_fetch_error hrun hdec, takeFault_entry s .invalidOperandEncoding (some op) w⟩

/-- Settles O13: a step that runs no instruction answers a next state, and `exec_refused` names the two
instructions that can be refused; the default parameters allow neither. -/
theorem stepIsRefusedOnlyByAParameter : Obligations.StepIsRefusedOnlyByAParameter := by
  intro s
  obtain ⟨-, hstep⟩ | ⟨-, i, hfetch, hstep⟩ | ⟨-, e, -, hstep⟩ := step_cases s
  · exact ⟨.inl ⟨_, hstep⟩, fun _ => ⟨_, hstep⟩⟩
  · rw [hstep]
    cases hout : exec i s with
    | next t => exact ⟨.inl ⟨t, rfl⟩, fun _ => ⟨t, rfl⟩⟩
    | fault f => exact nomatch f
    | refused q =>
      obtain ⟨rfl, hfull, hi⟩ | ⟨rfl, hrefuse, a, b, rfl⟩ := exec_refused hout
      · refine ⟨.inr (.inl ⟨rfl, ?_, ?_⟩), fun hdef => ?_⟩
        · rw [← stackFull_eq_false, hfull]
          decide
        · obtain ⟨a, rfl⟩ | ⟨a, rfl⟩ := hi
          · exact ⟨a, .inl hfetch⟩
          · exact ⟨a, .inr hfetch⟩
        · simp [State.stackFull, hdef, Config.default] at hfull
      · exact ⟨.inr (.inr ⟨rfl, hrefuse, a, b, hfetch⟩), fun hdef => by rw [hdef] at hrefuse; cases hrefuse⟩
  · exact ⟨.inl ⟨_, hstep⟩, fun _ => ⟨_, hstep⟩⟩

end Sys2Proof.Machine
end

section
/-! PROOFS. What an instruction raises and what it leaves unchanged, read off its effect once for every part of the
state (spec/10_state.md, spec/60_exceptions.md R201, R208). -/

namespace Sys2Proof.Machine

variable {s t : State} {i : Instr}

/-! ### Faults and status -/

/-- The faults of stages 4 and 6 (R201): the instruction, its situation, the kind and the info it is raised with. -/
inductive Raises (s : State) : Instr → FaultKind → Word → Prop where
  | badSlot {i : Instr} {v : Value} (h : i.dest = some (.lit v)) : Raises s i .invalidWriteTarget (zext16 v)
  | popEmpty {d : RegIdx} (h : s.stack = []) : Raises s (.pop (.reg d)) .stackUnderflow 0
  | retEmpty (h : s.stack = []) : Raises s .ret .stackUnderflow 0
  | modZero {d : RegIdx} {b c : Operand} (h : (s.val c).toNat = 0) :
    Raises s (.mod (.reg d) b c) .divisionByZero (zext16 (s.val b))
  | rmemOut {d : RegIdx} {b : Operand} (h : s.mem.size ≤ (s.val b).toNat) :
    Raises s (.rmem (.reg d) b) .addressOutOfRange (zext16 (s.val b))
  | wmemOut {a b : Operand} (h : s.mem.size ≤ (s.val a).toNat) :
    Raises s (.wmem a b) .addressOutOfRange (zext16 (s.val a))
  | inpClosed {d : RegIdx} (h : s.input = []) (hc : s.inputClosed = true) :
    Raises s (.inp (.reg d)) .inputExhausted 0

/-- An instruction raises, or halts, or leaves STATUS and FAULT as they were. -/
theorem Effect.status_cases (h : Effect s i t) :
    (∃ kind info, Raises s i kind info ∧ t = s.takeFault kind (some i.opcode) info) ∨
    (i = .halt ∧ t.status = .halted ∧ t.fault = s.fault) ∨
    (t.status = s.status ∧ t.fault = s.fault) := by
  cases h with
  | badSlot _ v hd => exact .inl ⟨_, _, .badSlot hd, rfl⟩
  | popEmpty d hs => exact .inl ⟨_, _, .popEmpty hs, rfl⟩
  | retEmpty hs => exact .inl ⟨_, _, .retEmpty hs, rfl⟩
  | modZero d b c hz => exact .inl ⟨_, _, .modZero hz, rfl⟩
  | rmemOut d b hb => exact .inl ⟨_, _, .rmemOut hb, rfl⟩
  | wmemOut a b ha => exact .inl ⟨_, _, .wmemOut ha, rfl⟩
  | inpClosed d hi hc => exact .inl ⟨_, _, .inpClosed hi hc, rfl⟩
  | halt => exact .inr (.inl ⟨rfl, rfl, rfl⟩)
  | _ => exact .inr (.inr ⟨rfl, rfl⟩)

/-- From Running, an instruction ends Faulted exactly by raising. -/
theorem Effect.faulted (h : Effect s i t) (hrun : s.status = .running) (hfault : t.status = .faulted) :
    ∃ kind info, Raises s i kind info ∧ t = s.takeFault kind (some i.opcode) info := by
  obtain hraise | ⟨-, hhalt, -⟩ | ⟨hsame, -⟩ := h.status_cases
  · exact hraise
  · rw [hfault] at hhalt
    cases hhalt
  · rw [hfault, hrun] at hsame
    cases hsame

theorem Raises.kind_ne_none {kind : FaultKind} {info : Word} (h : Raises s i kind info) : kind ≠ .none := by
  cases h <;> decide

/-! ### The parameters, memory and the channels -/

theorem Effect.config_eq (h : Effect s i t) : t.config = s.config := by
  cases h <;> rfl

/-- Only WMEM writes memory (R53, R161). -/
theorem Effect.mem_cases (h : Effect s i t) :
    t.mem = s.mem ∨ ∃ a b, i = .wmem a b ∧ s.mem.write (s.val a).toNat (zext16 (s.val b)) = some t.mem := by
  cases h with
  | wmem a b m hw => exact .inr ⟨a, b, rfl, hw⟩
  | _ => exact .inl rfl

theorem Effect.mem_size_eq (h : Effect s i t) : t.mem.size = s.mem.size := by
  obtain hmem | ⟨a, b, -, hw⟩ := h.mem_cases
  · rw [hmem]
  · exact (write_some hw).2.1

theorem Effect.mem_wf (h : Effect s i t) (hwf : s.mem.wf = true) : t.mem.wf = true := by
  obtain hmem | ⟨a, b, -, hw⟩ := h.mem_cases
  · rw [hmem, hwf]
  · exact write_wf hwf hw

/-- Only OUT writes OUTPUT (R182). -/
theorem Effect.output_cases (h : Effect s i t) :
    t.output = s.output ∨ ∃ a, i = .out a ∧ t.output = s.output ++ [low8 (s.val a)] := by
  cases h with
  | out a => exact .inr ⟨a, rfl, rfl⟩
  | _ => exact .inl rfl

theorem Effect.inputClosed_eq (h : Effect s i t) : t.inputClosed = s.inputClosed := by
  cases h <;> rfl

/-- Only IN takes from INPUT, and what it takes is what its register holds (R181). -/
theorem Effect.input_cases (h : Effect s i t) :
    t.input = s.input ∨
      ∃ c d, i = .inp (.reg d) ∧ s.input = c :: t.input ∧ t.reg d = zext15 c := by
  cases h with
  | inp d c cs hi => exact .inr ⟨c, d, rfl, hi, by simp⟩
  | _ => exact .inl rfl

/-! ### Registers -/

/-- The register file is left alone, or written once, at the dest-reg operand (R21). -/
theorem Effect.regs_cases (h : Effect s i t) :
    t.regs = s.regs ∨ ∃ d v, i.dest = some (.reg d) ∧ t.regs = (s.writeReg d v).regs := by
  cases h with
  | set d _ | pop d _ _ _ | eq d _ _ | gt d _ _ | add d _ _ | mult d _ _ | and d _ _ | or d _ _ | mod d _ _ _ _
  | not d _ | rmem d _ _ _ | inp d _ _ _ => exact .inr ⟨d, _, rfl, rfl⟩
  | _ => exact .inl rfl

theorem reg_eq_of_regs_eq {u : State} (h : t.regs = u.regs) (r : RegIdx) : t.reg r = u.reg r := by
  rw [State.reg, State.reg, h]

/-- Settles O25: the one register an instruction writes is its dest-reg operand. -/
theorem registersAreWrittenOnlyThroughTheDestination :
    Obligations.RegistersAreWrittenOnlyThroughTheDestination := by
  intro i s t r hexec hne
  obtain hsame | ⟨d, v, hdest, hregs⟩ := (exec_next hexec).regs_cases
  · exact absurd (reg_eq_of_regs_eq hsame r) hne
  · by_cases hr : r = d
    · rw [hdest, hr]
    · rw [reg_eq_of_regs_eq hregs, reg_writeReg_other s d r v hr] at hne
      exact absurd rfl hne

/-! ### The stack -/

/-- The stack is left alone, or gains one entry at its end, a value or the return address, or loses its last. -/
theorem Effect.stack_cases (h : Effect s i t) :
    t.stack = s.stack ∨
    (∃ w, t.stack = s.stack ++ [w] ∧ s.stackFull = false ∧
      ((∃ v : Value, w = zext16 v) ∨ w = s.nextPc (encode i).length)) ∨
    ∃ w, s.stack = t.stack ++ [w] := by
  cases h with
  | push a hroom => exact .inr (.inl ⟨_, rfl, hroom, .inl ⟨_, rfl⟩⟩)
  | call a hroom => exact .inr (.inl ⟨_, rfl, hroom, .inr rfl⟩)
  | pop d l w hs => exact .inr (.inr ⟨w, hs⟩)
  | ret l w hs => exact .inr (.inr ⟨w, hs⟩)
  | _ => exact .inl rfl

/-- StackUnderflow is raised exactly by POP to a register and RET, on an empty stack (R172). -/
theorem Effect.stackUnderflow_iff (h : Effect s i t) (hrun : s.status = .running) :
    FaultedAs .stackUnderflow t ↔ s.stack = [] ∧ (i = .ret ∨ ∃ d, i = .pop (.reg d)) := by
  constructor
  · rintro ⟨hfault, hkind⟩
    obtain ⟨kind, info, hraise, rfl⟩ := h.faulted hrun hfault
    cases hraise with
    | popEmpty hs => exact ⟨hs, .inr ⟨_, rfl⟩⟩
    | retEmpty hs => exact ⟨hs, .inl rfl⟩
    | _ => cases hkind
  · rintro ⟨hs, rfl | ⟨d, rfl⟩⟩
    · cases h with
      | badSlot _ _ hd => cases hd
      | ret l w hl => simp [hs] at hl
      | retEmpty _ => exact ⟨rfl, rfl⟩
    · cases h with
      | badSlot _ _ hd => cases hd
      | pop _ l w hl => simp [hs] at hl
      | popEmpty _ _ => exact ⟨rfl, rfl⟩

/-- Settles O24: a fault leaves the stack alone; beside the faults, only the effects of PUSH, CALL, POP and RET
touch it. -/
theorem stackDepthChanges : Obligations.StackDepthChanges := by
  intro i s t hrun hexec
  have heff := exec_next hexec
  refine ⟨?_, heff.stackUnderflow_iff hrun⟩
  split
  next hfault =>
    obtain ⟨kind, info, -, rfl⟩ := heff.faulted hrun hfault
    rfl
  next hok =>
    cases heff with
    | badSlot _ _ _ => exact absurd rfl hok
    | popEmpty _ _ => exact absurd rfl hok
    | retEmpty _ => exact absurd rfl hok
    | push _ _ => exact ⟨_, rfl⟩
    | call _ _ => exact ⟨_, rfl⟩
    | pop _ _ w hs => exact ⟨w, hs⟩
    | ret _ w hs => exact ⟨w, hs⟩
    | _ => rfl

/-! ### The instruction pointer -/

/-- `pc` stays, moves past the instruction, becomes a value, or becomes an entry of the stack (R24). -/
theorem Effect.pc_cases (h : Effect s i t) :
    t.pc = s.pc ∨ t.pc = s.nextPc (encode i).length ∨ (∃ v : Value, t.pc = zext16 v) ∨ t.pc ∈ s.stack := by
  cases h with
  | badSlot _ _ _ | popEmpty _ _ | retEmpty _ | modZero _ _ _ _ | rmemOut _ _ _ | wmemOut _ _ _ | inpClosed _ _ _
  | inpHold _ _ _ => exact .inl rfl
  | jmp _ | jtTaken _ _ _ | jfTaken _ _ _ | call _ _ => exact .inr (.inr (.inl ⟨_, rfl⟩))
  | ret l w hs => exact .inr (.inr (.inr (by simp [hs])))
  | _ => exact .inr (.inl rfl)

/-- Settles O30: a fault leaves `pc` at P; beside the faults, each effect is one row of the table. -/
theorem nextPcFollowsTheTable : Obligations.NextPcFollowsTheTable := by
  intro i s t hrun hexec
  have heff := exec_next hexec
  split
  next hfault =>
    obtain ⟨kind, info, -, rfl⟩ := heff.faulted hrun hfault
    rfl
  next hok =>
    cases heff with
    | badSlot _ _ _ | popEmpty _ _ | retEmpty _ | modZero _ _ _ _ | rmemOut _ _ _ | wmemOut _ _ _
    | inpClosed _ _ _ => exact absurd rfl hok
    | jmp a => exact toNat_zext16 (s.val a)
    | call a _ => exact toNat_zext16 (s.val a)
    | jtTaken a b ha =>
      simp only [if_pos ha]
      exact toNat_zext16 (s.val b)
    | jtNot a b ha =>
      simp only [if_neg (not_not.2 ha)]
      rfl
    | jfTaken a b ha =>
      simp only [if_pos ha]
      exact toNat_zext16 (s.val b)
    | jfNot a b ha =>
      simp only [if_neg ha]
      rfl
    | ret l w hs => simp [hs]
    | inpHold _ hi _ => simp [hi]
    | inp _ c cs hi =>
      simp only [hi]
      rfl
    | _ => rfl

end Sys2Proof.Machine
end

section
/-! PROOFS. The invariant (spec/10_state.md R25, R27, R33): every step and every host action keeps it. -/

namespace Sys2Proof.Machine

variable {s t : State} {i : Instr}

/-! ### What a step can answer -/

/-- Everything a step that answers a next state did. -/
theorem step_next (h : step s = .next t) :
    (s.status ≠ .running ∧ t = s) ∨
    (s.status = .running ∧ ∃ i, s.fetch = .ok i ∧ Effect s i t) ∨
    (s.status = .running ∧ ∃ e, s.fetch = .error e ∧ t = s.takeDecodeFault e) := by
  obtain ⟨hover, hstep⟩ | ⟨hrun, i, hfetch, hstep⟩ | ⟨hrun, e, hfetch, hstep⟩ := step_cases s
  · rw [hstep, Host.Outcome.next.injEq] at h
    exact .inl ⟨hover, h.symm⟩
  · exact .inr (.inl ⟨hrun, i, hfetch, exec_next (hstep ▸ h)⟩)
  · rw [hstep, Host.Outcome.next.injEq] at h
    exact .inr (.inr ⟨hrun, e, hfetch, h.symm⟩)

/-! ### The fault record -/

/-- The twelve register-writing instructions are those with a dest-reg operand (R21). -/
theorem dest_isSome_iff (i : Instr) : i.dest.isSome = true ↔ i.opcode.toNat ∈ registerWriters := by
  cases i <;> simp [Instr.dest, Instr.opcode, registerWriters]

/-- What an instruction raises is what the table of R201 allows. -/
theorem Raises.followsTable {kind : FaultKind} {info : Word} (h : Raises s i kind info) :
    (s.takeFault kind (some i.opcode) info).fault.FollowsTable s.mem.size := by
  have lit (v : Value) : (zext16 v).toNat ≤ 32767 := by
    rw [toNat_zext16]
    omega
  cases h with
  | badSlot hd => exact ⟨rfl, (dest_isSome_iff i).1 (by rw [hd]; rfl), lit _⟩
  | popEmpty _ => exact ⟨rfl, by simp [Instr.opcode], rfl⟩
  | retEmpty _ => exact ⟨rfl, by simp [Instr.opcode], rfl⟩
  | modZero _ => exact ⟨rfl, rfl, lit _⟩
  | rmemOut hb => exact ⟨by simpa using hb, by simp [Instr.opcode]⟩
  | wmemOut ha => exact ⟨by simpa using ha, by simp [Instr.opcode]⟩
  | inpClosed _ _ => exact ⟨rfl, rfl, rfl⟩

/-- What a stopped fetch raises is what the table of R201 allows. -/
theorem EventHolds.followsTable {e : DecodeError} (h : EventHolds s.mem s.pc.toNat e)
    (hsize : s.mem.size ≤ maxCells) : (s.takeDecodeFault e).fault.FollowsTable s.mem.size := by
  cases e with
  | noOpcode => exact ⟨h, by simp [State.takeDecodeFault]⟩
  | invalidOpcode op => exact ⟨rfl, h.2, rfl⟩
  | operandMissing op k =>
    obtain ⟨hread, hle, hk, hend⟩ := h
    have hlt := (read_isSome s.mem _).1 (Option.isSome_of_eq_some hread)
    refine ⟨?_, by simpa [State.takeDecodeFault] using hle⟩
    have hinfo := toNat_nextPc hsize hlt.le (n := 1 + k) (by omega)
    simp only [State.takeDecodeFault, takeFault_fault, hinfo]
    omega
  | invalidOperand op w => exact ⟨rfl, h.1, h.2⟩

/-- The fault a stopped fetch enters is one of the seven. -/
theorem takeDecodeFault_eq (s : State) (e : DecodeError) :
    ∃ kind opcode info, kind ≠ .none ∧ s.takeDecodeFault e = s.takeFault kind opcode info := by
  cases e <;> exact ⟨_, _, _, by decide, rfl⟩

/-- Fault entry keeps the invariant where its record follows the table. -/
theorem State.Inv.takeFault (hinv : s.Inv) {kind : FaultKind} {opcode : Option Word} {info : Word}
    (hkind : kind ≠ .none) (htable : (s.takeFault kind opcode info).fault.FollowsTable s.mem.size) :
    (s.takeFault kind opcode info).Inv where
  memWf := hinv.memWf
  memSize := hinv.memSize
  pcRange := hinv.pcRange
  stackRange := hinv.stackRange
  stackDepth := hinv.stackDepth
  faultClear := fun h => absurd rfl h
  faultKept := fun _ => ⟨hkind, rfl, htable⟩

/-! ### Ranges -/

theorem inPcRange_zext16 (size : Nat) (v : Value) : InPcRange size (zext16 v) := by
  left
  rw [toNat_zext16]
  omega

/-- `pc` past a fetched instruction is at most `MEM_SIZE`, for all its cells exist (R25). -/
theorem inPcRange_nextPc (hsize : s.mem.size ≤ maxCells) (hfetch : s.fetch = .ok i) :
    InPcRange s.mem.size (s.nextPc (encode i).length) := by
  right
  have hcells := pc_add_length_le_of_fetch hfetch
  have hlen := length_encode i
  have hops := length_operandsOf i
  rw [toNat_nextPc hsize (by omega) (by omega)]
  exact hcells

theorem State.Inv.pcRange_of_effect (hinv : s.Inv) (hfetch : s.fetch = .ok i) (heff : Effect s i t) :
    InPcRange s.mem.size t.pc := by
  obtain hpc | hpc | ⟨v, hpc⟩ | hmem := heff.pc_cases
  · exact hpc ▸ hinv.pcRange
  · exact hpc ▸ inPcRange_nextPc hinv.memSize hfetch
  · exact hpc ▸ inPcRange_zext16 _ v
  · exact hinv.stackRange _ hmem

theorem State.Inv.stackRange_of_effect (hinv : s.Inv) (hfetch : s.fetch = .ok i) (heff : Effect s i t) :
    ∀ e ∈ t.stack, InPcRange s.mem.size e := by
  obtain hst | ⟨w, hst, -, hw⟩ | ⟨w, hst⟩ := heff.stack_cases
  · exact hst ▸ hinv.stackRange
  · have hnew : InPcRange s.mem.size w := by
      obtain ⟨v, rfl⟩ | rfl := hw
      · exact inPcRange_zext16 _ v
      · exact inPcRange_nextPc hinv.memSize hfetch
    intro e he
    rw [hst, List.mem_append, List.mem_singleton] at he
    obtain hold | rfl := he
    · exact hinv.stackRange e hold
    · exact hnew
  · intro e he
    exact hinv.stackRange e (by rw [hst]; exact List.mem_append_left _ he)

theorem State.Inv.stackDepth_of_effect (hinv : s.Inv) (heff : Effect s i t) :
    ∀ n, t.config.stackDepth = some n → t.stack.length ≤ n := by
  rw [heff.config_eq]
  intro n hn
  have hold := hinv.stackDepth n hn
  obtain hst | ⟨w, hst, hroom, -⟩ | ⟨w, hst⟩ := heff.stack_cases
  · rw [hst]
    exact hold
  · have := stackFull_eq_false.1 hroom n hn
    rw [hst, List.length_append, List.length_singleton]
    omega
  · rw [hst, List.length_append] at hold
    omega

/-! ### Steps and host actions -/

/-- An instruction that was fetched and does not raise keeps the invariant: FAULT stays clear. -/
theorem State.Inv.of_effect (hinv : s.Inv) (hrun : s.status = .running) (hfetch : s.fetch = .ok i)
    (heff : Effect s i t) (hok : t.status ≠ .faulted) (hfault : t.fault = s.fault) : t.Inv where
  memWf := heff.mem_wf hinv.memWf
  memSize := heff.mem_size_eq ▸ hinv.memSize
  pcRange := heff.mem_size_eq ▸ hinv.pcRange_of_effect hfetch heff
  stackRange := heff.mem_size_eq ▸ hinv.stackRange_of_effect hfetch heff
  stackDepth := hinv.stackDepth_of_effect heff
  faultClear := fun _ => by rw [hfault, hinv.faultClear (by rw [hrun]; decide)]
  faultKept := fun h => absurd h hok

/-- Settles O14: a step changes nothing, enters a fault whose record follows the table, or executes an
instruction all of whose cells exist. -/
theorem stepKeepsTheInvariant : Obligations.StepKeepsTheInvariant := by
  intro s t hinv hstep
  obtain ⟨-, rfl⟩ | ⟨hrun, i, hfetch, heff⟩ | ⟨-, e, hfetch, rfl⟩ := step_next hstep
  · exact hinv
  · obtain ⟨kind, info, hraise, rfl⟩ | ⟨-, hhalt, hfault⟩ | ⟨hsame, hfault⟩ := heff.status_cases
    · exact hinv.takeFault hraise.kind_ne_none hraise.followsTable
    · exact hinv.of_effect hrun hfetch heff (by rw [hhalt]; decide) hfault
    · exact hinv.of_effect hrun hfetch heff (by rw [hsame, hrun]; decide) hfault
  · have htable := (eventHolds_of_fetch_error hfetch).followsTable hinv.memSize
    obtain ⟨kind, opcode, info, hkind, heq⟩ := takeDecodeFault_eq s e
    rw [heq] at htable ⊢
    exact hinv.takeFault hkind htable

/-- The state a reset answers (R240). -/
theorem resetWith_next {image : List Word} (h : s.resetWith image = .next t) :
    image.length ≤ maxCells ∧
      t = { State.reset with
            config := s.config, mem := Memory.ofImage image, input := s.input, inputClosed := s.inputClosed } := by
  unfold State.resetWith at h
  split at h
  next hlen =>
    cases h
    exact ⟨hlen, rfl⟩
  next => cases h

/-- The invariant of a state right after a reset, whatever image, parameters and input stream it stands with. -/
theorem inv_of_reset {m : Memory} (hwf : m.wf = true) (hsize : m.size ≤ maxCells) (c : Config) (l : List Chr)
    (b : Bool) : { State.reset with config := c, mem := m, input := l, inputClosed := b }.Inv where
  memWf := hwf
  memSize := hsize
  pcRange := .inl (Nat.zero_le _)
  stackRange := fun _ he => nomatch he
  stackDepth := fun n _ => Nat.zero_le n
  faultClear := fun _ => rfl
  faultKept := fun h => nomatch h

/-- Settles O15: the reset state is one with the empty image. -/
theorem resetMeetsTheInvariant : Obligations.ResetMeetsTheInvariant :=
  inv_of_reset (m := { size := 0, cells := [] }) rfl (Nat.zero_le _) Config.default [] false

/-- The input stream is no part of the invariant. -/
theorem State.Inv.setInput (hinv : s.Inv) (l : List Chr) : (s.setInput l).Inv := { hinv with }

theorem State.Inv.setInputClosed (hinv : s.Inv) (b : Bool) : (s.setInputClosed b).Inv := { hinv with }

/-- Settles O17: a reset makes a state like the reset state, and the other two actions touch the input stream
alone. -/
theorem hostActionsKeepTheInvariant : Obligations.HostActionsKeepTheInvariant := by
  refine ⟨fun image s t h => ?_, fun image s h => if_neg (Nat.not_le.2 h), fun c s hinv => ?_,
    fun s hinv => hinv.setInputClosed true⟩
  · obtain ⟨hlen, rfl⟩ := resetWith_next h
    exact inv_of_reset (ofImage_wf image) hlen s.config s.input s.inputClosed
  · unfold State.supplyChar
    split
    · exact hinv
    · exact hinv.setInput _

/-- Settles O16: the state a reset answers is written out, and its memory reads as the image. -/
theorem resetWithImageSetsEveryPiece : Obligations.ResetWithImageSetsEveryPiece := by
  intro image s hlen
  refine ⟨_, if_pos hlen, fun r => ?_, rfl, rfl, rfl, read_ofImage image, rfl, rfl, rfl, rfl, rfl, rfl, rfl,
    rfl, rfl, rfl⟩
  simp [State.reg]

end Sys2Proof.Machine
end

section
/-! PROOFS. How a run ends (spec/60_exceptions.md, spec/70_reset_and_hazards.md R245): STATUS, FAULT and the cause
of every fault kind. -/

namespace Sys2Proof.Machine

variable {s t : State} {i : Instr}

/-- Settles O19: an instruction raises, halts or leaves STATUS and FAULT alone, and a stopped fetch raises. -/
theorem statusChangesOnlyAtTheEnd : Obligations.StatusChangesOnlyAtTheEnd := by
  intro s t hstep
  obtain ⟨-, rfl⟩ | ⟨hrun, i, -, heff⟩ | ⟨hrun, e, -, rfl⟩ := step_next hstep
  · exact .inl ⟨rfl, rfl⟩
  · obtain ⟨kind, info, hraise, rfl⟩ | ⟨-, hhalt, hfault⟩ | hsame := heff.status_cases
    · exact .inr (.inr ⟨hrun, rfl, hraise.kind_ne_none⟩)
    · exact .inr (.inl ⟨hrun, hhalt, hfault⟩)
    · exact .inl hsame
  · obtain ⟨kind, opcode, info, hkind, heq⟩ := takeDecodeFault_eq s e
    rw [heq]
    exact .inr (.inr ⟨hrun, rfl, hkind⟩)

/-- Settles O18: only HALT's effect has the status Halted, and HALT has no other effect. -/
theorem haltedIsReachedOnlyByHalt : Obligations.HaltedIsReachedOnlyByHalt := by
  refine ⟨fun s t hstep hnot hhalted => ?_, fun s hrun hfetch => ⟨_, step_of_fetch_ok hrun hfetch, rfl⟩⟩
  obtain ⟨-, rfl⟩ | ⟨hrun, i, hfetch, heff⟩ | ⟨-, e, -, rfl⟩ := step_next hstep
  · exact absurd hhalted hnot
  · obtain ⟨kind, info, -, rfl⟩ | ⟨rfl, -, -⟩ | ⟨hsame, -⟩ := heff.status_cases
    · cases hhalted
    · exact ⟨hrun, hfetch⟩
    · exact absurd (hsame ▸ hhalted) hnot
  · obtain ⟨_, _, _, -, heq⟩ := takeDecodeFault_eq s e
    rw [heq] at hhalted
    cases hhalted

/-- A running step that ends Faulted fetched an instruction that raises, or no instruction. -/
theorem step_faulted (hrun : s.status = .running) (hstep : step s = .next t) (hfault : t.status = .faulted) :
    (∃ i kind info, s.fetch = .ok i ∧ Raises s i kind info ∧ t = s.takeFault kind (some i.opcode) info) ∨
    ∃ e, s.fetch = .error e ∧ t = s.takeDecodeFault e := by
  obtain ⟨hover, -⟩ | ⟨-, i, hfetch, heff⟩ | ⟨-, e, hfetch, heq⟩ := step_next hstep
  · exact absurd hrun hover
  · obtain ⟨kind, info, hraise, heq⟩ := heff.faulted hrun hfault
    exact .inl ⟨i, kind, info, hfetch, hraise, heq⟩
  · exact .inr ⟨e, hfetch, heq⟩

/-- Settles O20: both ways to fault are fault entry, and Faulted is not Running. -/
theorem faultsArePrecise : Obligations.FaultsArePrecise := by
  intro s t hrun hstep hfault
  refine ⟨?_, step_of_over (by rw [hfault]; decide)⟩
  obtain ⟨i, kind, info, -, hraise, rfl⟩ | ⟨e, -, rfl⟩ := step_faulted hrun hstep hfault
  · exact ⟨kind, _, _, hraise.kind_ne_none, takeFault_entry s kind (some i.opcode) info⟩
  · obtain ⟨kind, opcode, info, hkind, heq⟩ := takeDecodeFault_eq s e
    rw [heq]
    exact ⟨kind, _, _, hkind, takeFault_entry s kind opcode info⟩

/-- Settles O21: the kind says which raise or which stopped fetch it was, and each of those carries its
situation. -/
theorem faultKindNamesItsCause : Obligations.FaultKindNamesItsCause := by
  intro s t hrun hstep hfault
  obtain ⟨i, kind, info, hfetch, hraise, rfl⟩ | ⟨e, hfetch, rfl⟩ := step_faulted hrun hstep hfault
  · rw [takeFault_fault]
    cases hraise with
    | badSlot hd => exact ⟨i, _, hfetch, hd⟩
    | popEmpty hs => exact ⟨hs, .inl ⟨_, hfetch⟩⟩
    | retEmpty hs => exact ⟨hs, .inr hfetch⟩
    | modZero hz => exact ⟨_, _, _, hfetch, hz⟩
    | rmemOut hb => exact .inr (.inr (.inl ⟨_, _, hfetch, hb⟩))
    | wmemOut ha => exact .inr (.inr (.inr ⟨_, _, hfetch, ha⟩))
    | inpClosed hi hc => exact ⟨⟨_, hfetch⟩, hi, hc⟩
  · have hevent := eventHolds_of_fetch_error hfetch
    cases e with
    | noOpcode => exact .inl hevent
    | invalidOpcode op => exact ⟨op, hevent⟩
    | operandMissing op k => exact .inr (.inl ⟨op, k, hfetch⟩)
    | invalidOperand op w => exact ⟨op, w, hfetch, hevent.2⟩

/-! ### Literal destinations and execute faults -/

/-- Raising is fault entry with the opcode of the instruction. -/
theorem raise_entry (i : Instr) (kind : FaultKind) (info : Word) (s : State) :
    ∃ t, raise i kind info s = .next t ∧ FaultEntry kind (some i.opcode) info.toNat s t :=
  ⟨_, rfl, takeFault_entry s kind (some i.opcode) info⟩

/-- Raising with a value as the info records its number. -/
theorem raise_value_entry (i : Instr) (kind : FaultKind) (v : Value) (s : State) :
    ∃ t, raise i kind (zext16 v) s = .next t ∧ FaultEntry kind (some i.opcode) v.toNat s t := by
  rw [← toNat_zext16]
  exact raise_entry i kind (zext16 v) s

/-- With a literal as its destination, an instruction ends at stage 4 (R85, R204). -/
theorem exec_of_dest_lit {v : Value} (h : i.dest = some (.lit v)) (s : State) :
    exec i s = raise i .invalidWriteTarget (zext16 v) s := by
  cases i <;> cases h <;> rfl

theorem faultedAs_of_dest_lit {v : Value} (h : i.dest = some (.lit v)) (s : State) :
    ∃ t, exec i s = .next t ∧ FaultedAs .invalidWriteTarget t := by
  rw [exec_of_dest_lit h]
  exact raise_faultedAs i .invalidWriteTarget (zext16 v) s

/-- Settles O22: the instructions with a dest-reg are the twelve, and each checks it first. -/
theorem literalDestinationFaults : Obligations.LiteralDestinationFaults := by
  refine ⟨dest_isSome_iff, fun i v s hd => ?_⟩
  rw [exec_of_dest_lit hd]
  exact raise_value_entry i .invalidWriteTarget v s

theorem exec_pop_empty (d : RegIdx) (hs : s.stack = []) :
    exec (.pop (.reg d)) s = raise (.pop (.reg d)) .stackUnderflow 0 s := by
  simp only [exec, execPop, withSlot_reg, pop_none.2 hs]

theorem exec_ret_empty (hs : s.stack = []) : exec .ret s = raise .ret .stackUnderflow 0 s := by
  simp only [exec, execRet, pop_none.2 hs]

theorem exec_mod_zero (d : RegIdx) (b : Operand) {c : Operand} (hz : (s.val c).toNat = 0) :
    exec (.mod (.reg d) b c) s = raise (.mod (.reg d) b c) .divisionByZero (zext16 (s.val b)) s := by
  simp only [exec, execMod, withSlot_reg, aluMod, if_pos hz]

theorem exec_rmem_out (d : RegIdx) {b : Operand} (hb : s.mem.size ≤ (s.val b).toNat) :
    exec (.rmem (.reg d) b) s = raise (.rmem (.reg d) b) .addressOutOfRange (zext16 (s.val b)) s := by
  simp only [exec, execRmem, withSlot_reg, (read_none _ _).2 hb]

theorem exec_wmem_out {a : Operand} (b : Operand) (ha : s.mem.size ≤ (s.val a).toNat) :
    exec (.wmem a b) s = raise (.wmem a b) .addressOutOfRange (zext16 (s.val a)) s := by
  simp only [exec, execWmem, (write_none _ _ _).2 ha]

theorem exec_inp_closed (d : RegIdx) (hi : s.input = []) (hc : s.inputClosed = true) :
    exec (.inp (.reg d)) s = raise (.inp (.reg d)) .inputExhausted 0 s := by
  simp only [exec, execInp, withSlot_reg, inChannel_nil hi, hc, if_true]

/-- Settles O23: in each of the six situations the instruction is the raise of its fault. -/
theorem executeFaultsAreRecorded : Obligations.ExecuteFaultsAreRecorded :=
  ⟨fun d s hs => exec_pop_empty d hs ▸ raise_entry _ _ _ s,
    fun s hs => exec_ret_empty hs ▸ raise_entry _ _ _ s,
    fun d b _ s hz => exec_mod_zero d b hz ▸ raise_value_entry _ _ _ s,
    fun d _ s hb => exec_rmem_out d hb ▸ raise_value_entry _ _ _ s,
    fun _ b s ha => exec_wmem_out b ha ▸ raise_value_entry _ _ _ s,
    fun d s hi hc => exec_inp_closed d hi hc ▸ raise_entry _ _ _ s⟩

end Sys2Proof.Machine
end

section
/-! PROOFS. What a step can do to memory and to the channels (spec/10_state.md sections 7 and 8, spec/20_memory.md). -/

namespace Sys2Proof.Machine

variable {s t : State}

@[simp] theorem takeDecodeFault_mem (e : DecodeError) : (s.takeDecodeFault e).mem = s.mem := by cases e <;> rfl
@[simp] theorem takeDecodeFault_config (e : DecodeError) : (s.takeDecodeFault e).config = s.config := by
  cases e <;> rfl
@[simp] theorem takeDecodeFault_output (e : DecodeError) : (s.takeDecodeFault e).output = s.output := by
  cases e <;> rfl
@[simp] theorem takeDecodeFault_input (e : DecodeError) : (s.takeDecodeFault e).input = s.input := by
  cases e <;> rfl
@[simp] theorem takeDecodeFault_inputClosed (e : DecodeError) :
    (s.takeDecodeFault e).inputClosed = s.inputClosed := by
  cases e <;> rfl

/-- Settles O27: a step without an instruction leaves memory alone, and of the instructions only WMEM writes, at
one address, a widened value. -/
theorem onlyWmemChangesMemory : Obligations.OnlyWmemChangesMemory := by
  intro s t hwf hstep
  obtain ⟨-, rfl⟩ | ⟨-, i, hfetch, heff⟩ | ⟨-, e, -, rfl⟩ := step_next hstep
  · exact ⟨rfl, rfl, fun k hk => absurd rfl hk⟩
  · refine ⟨heff.mem_size_eq, heff.config_eq, fun k hk => ?_⟩
    obtain hmem | ⟨a, b, rfl, hw⟩ := heff.mem_cases
    · exact absurd (by rw [hmem]) hk
    · have hka : k = (s.val a).toNat := by
        by_contra hne
        exact hk (read_write_other hwf hw hne)
      refine ⟨a, b, zext16 (s.val b), hfetch, hka, hka ▸ read_write_same hwf hw, toNat_zext16 _, ?_⟩
      rw [toNat_zext16]
      omega
  · exact ⟨by simp, by simp, fun k hk => absurd (by simp) hk⟩

/-- Settles O28: of the instructions only OUT appends, and it appends one low byte. -/
theorem outputGrowsOnlyByOut : Obligations.OutputGrowsOnlyByOut := by
  intro s t hstep
  obtain ⟨-, rfl⟩ | ⟨hrun, i, hfetch, heff⟩ | ⟨-, e, -, rfl⟩ := step_next hstep
  · exact .inl rfl
  · obtain hsame | ⟨a, rfl, hout⟩ := heff.output_cases
    · exact .inl hsame
    · exact .inr ⟨a, low8 (s.val a), hrun, hfetch, toNat_low8 _, hout⟩
  · exact .inl (by simp)

/-- Settles O29: of the instructions only IN takes the front character, and none touches the closed mark. -/
theorem inputIsConsumedOnlyByIn : Obligations.InputIsConsumedOnlyByIn := by
  intro s t hstep
  obtain ⟨-, rfl⟩ | ⟨hrun, i, hfetch, heff⟩ | ⟨-, e, -, rfl⟩ := step_next hstep
  · exact ⟨rfl, .inl rfl⟩
  · refine ⟨heff.inputClosed_eq, ?_⟩
    obtain hsame | ⟨c, d, rfl, hin, hreg⟩ := heff.input_cases
    · exact .inl hsame
    · exact .inr ⟨c, d, hrun, hfetch, hin, by rw [hreg, toNat_zext15]⟩
  · exact ⟨by simp, .inl (by simp)⟩

/-! ### The canonical listing -/

/-- A canonical listing that is not empty holds a word other than 0 at its first address, which is below the size. -/
theorem cellsWf_cons {size lo a : Nat} {w : Word} {cs : List MemCell} :
    cellsWf size lo ((a, w) :: cs) = true ↔ lo ≤ a ∧ a < size ∧ w ≠ 0 ∧ cellsWf size (a + 1) cs = true := by
  simp [cellsWf, and_assoc]

/-- Two canonical listings that give every cell below the size the same word are the same listing: at the lower
of their first addresses one gives a word other than 0, so the other must list that address too. -/
theorem eq_of_cellAt_eq {size lo : Nat} {cs ds : List MemCell} (hc : cellsWf size lo cs = true)
    (hd : cellsWf size lo ds = true) (h : ∀ k, k < size → cellAt cs k = cellAt ds k) : cs = ds := by
  induction cs generalizing lo ds with
  | nil =>
    cases ds with
    | nil => rfl
    | cons d ds =>
      obtain ⟨-, hlt, hne, -⟩ := cellsWf_cons.1 hd
      have := h d.1 hlt
      simp only [cellAt, if_true] at this
      exact absurd this.symm hne
  | cons c cs ih =>
    obtain ⟨a, v⟩ := c
    obtain ⟨-, hlta, hv, hcs⟩ := cellsWf_cons.1 hc
    cases ds with
    | nil =>
      have := h a hlta
      simp only [cellAt, if_true] at this
      exact absurd this hv
    | cons d ds =>
      obtain ⟨b, w⟩ := d
      obtain ⟨-, hltb, hw, hds⟩ := cellsWf_cons.1 hd
      have hab : a = b := by
        by_contra hne
        obtain hlt | hgt := Nat.lt_or_gt_of_ne hne
        · have := h a hlta
          rw [cellAt, if_pos rfl, cellAt, if_neg (Ne.symm hne), cellAt_below hds (by omega)] at this
          exact hv this
        · have := h b hltb
          rw [cellAt, if_neg hne, cellAt, if_pos rfl, cellAt_below hcs (by omega)] at this
          exact hw this.symm
      subst hab
      have hvw : v = w := by
        have := h a hlta
        rwa [cellAt, if_pos rfl, cellAt, if_pos rfl] at this
      have htail : cs = ds := ih hcs hds fun k hk => by
        by_cases hka : k ≤ a
        · rw [cellAt_below hcs (by omega), cellAt_below hds (by omega)]
        · have := h k hk
          rwa [cellAt, if_neg (by omega), cellAt, if_neg (by omega)] at this
      rw [hvw, htail]

/-- Two memories that read alike end at the same address. -/
theorem size_le_of_read_eq {m n : Memory} (h : ∀ k, m.read k = n.read k) : m.size ≤ n.size :=
  (read_none m n.size).1 (by rw [h, (read_none n n.size).2 (Nat.le_refl _)])

/-- Settles O33: such memories have one size, and their listings give every cell below it the same word. -/
theorem canonicalMemoryIsDeterminedByItsReads : Obligations.CanonicalMemoryIsDeterminedByItsReads := by
  rintro ⟨size, cs⟩ ⟨size', ds⟩ hm hn hread
  obtain rfl : size = size' :=
    Nat.le_antisymm (size_le_of_read_eq hread) (size_le_of_read_eq fun k => (hread k).symm)
  have hcells : cs = ds := eq_of_cellAt_eq hm hn fun k hk => by
    have := hread k
    simpa only [Memory.read, if_pos hk, Option.some.injEq] using this
  rw [hcells]

end Sys2Proof.Machine
end

section
/-! PROOFS. HALT (spec/40_halt_noop.md R110), and the four stack instructions (spec/41_set_push_pop.md R121, R122,
spec/46_call_ret.md R170, R171): one equation of `exec` per way they commit, and the two round trips. -/

namespace Sys2Proof.Machine

variable {s : State}

/-! ### HALT -/

theorem exec_halt (s : State) : exec .halt s = .next ((s.setStatus .halted).advance 1) := rfl

/-- Settles O34: HALT sets STATUS and advances. -/
theorem haltEndsTheRun : Obligations.HaltEndsTheRun := by
  refine ⟨rfl, fun s => ⟨_, exec_halt s, rfl, pcPlus_advance s 1, rfl, rfl, fun _ => rfl, ?_, rfl, rfl, rfl, rfl⟩⟩
  exact sameMem_of_eq rfl

/-! ### PUSH, POP, CALL and RET -/

/-- Where the stack has room, PUSH appends its value (R121). -/
theorem exec_push_room (hroom : s.HasRoom) (a : Operand) :
    exec (.push a) s = .next ((s.push (zext16 (s.val a))).advance 2) :=
  if_neg (Bool.eq_false_iff.1 (stackFull_eq_false.2 hroom))

/-- Where the stack has room, CALL appends the return address and jumps (R170). -/
theorem exec_call_room (hroom : s.HasRoom) (a : Operand) :
    exec (.call a) s = .next ((s.push (s.nextPc 2)).setPc (zext16 (s.val a))) :=
  if_neg (Bool.eq_false_iff.1 (stackFull_eq_false.2 hroom))

/-- POP takes the last entry (R122). -/
theorem exec_pop_concat (d : RegIdx) {l : List Word} {w : Word} (hs : s.stack = l ++ [w]) :
    exec (.pop (.reg d)) s = commitReg d w 2 (s.setStack l) := by
  simp only [exec, execPop, withSlot_reg, pop_concat hs]

/-- RET takes the last entry (R171). -/
theorem exec_ret_concat {l : List Word} {w : Word} (hs : s.stack = l ++ [w]) :
    exec .ret s = .next ((s.setStack l).setPc w) := by
  simp only [exec, execRet, pop_concat hs]

/-- Settles O37: where the stack has room, PUSH appends and advances. -/
theorem pushAppendsTheValue : Obligations.PushAppendsTheValue := fun a _ hroom =>
  ⟨_, exec_push_room hroom a, ⟨_, rfl, toNat_zext16 _⟩, rfl, fun _ => rfl, sameMem_of_eq rfl, ⟨rfl, rfl, rfl⟩,
    rfl, rfl, rfl⟩

/-- Settles O38: POP commits the last entry through the write port, on the state without that entry. -/
theorem popTakesTheLastEntry : Obligations.PopTakesTheLastEntry := by
  refine ⟨fun _ => rfl, fun d s l w hs => ?_, fun d s hs => ?_, fun v s => ?_⟩
  · obtain ⟨t, hnext, hregs, hpc, hmem, hstack, hchannels, hrun⟩ := commitReg_commit d w 2 (s.setStack l)
    exact ⟨t, exec_pop_concat d hs ▸ hnext, hregs, hstack, hpc, hmem, hchannels, hrun⟩
  · exact exec_pop_empty d hs ▸ raise_faultedAs _ _ _ s
  · exact faultedAs_of_dest_lit rfl s

/-- Settles O39: a full stack is the first thing PUSH and CALL look at. -/
theorem fullFiniteStackRefusesPushAndCall : Obligations.FullFiniteStackRefusesPushAndCall := by
  intro a s n hdepth hlen
  have hfull : s.stackFull = true := by simpa only [State.stackFull, hdepth, decide_eq_true_eq] using hlen
  exact ⟨if_pos hfull, if_pos hfull⟩

/-- Settles O40: the entry POP takes is the one PUSH appended, a value, which the write port stores whole. -/
theorem pushThenPopReturnsTheValue : Obligations.PushThenPopReturnsTheValue := by
  intro a d s hroom
  refine ⟨_, _, exec_push_room hroom a, exec_pop_concat d rfl, ?_, rfl, fun r hr => ?_, sameMem_of_eq rfl⟩
  · simp
  · simp [hr]

/-- Settles O55: where the stack has room, CALL appends P + 2 and jumps. -/
theorem callPushesTheReturnAddress : Obligations.CallPushesTheReturnAddress := fun a _ hroom =>
  ⟨_, exec_call_room hroom a, rfl, toNat_zext16 _, fun _ => rfl, sameMem_of_eq rfl, ⟨rfl, rfl, rfl⟩, rfl, rfl, rfl⟩

/-- Settles O56: RET moves the last entry to `pc`, and raises where there is none. -/
theorem retPopsTheProgramCounter : Obligations.RetPopsTheProgramCounter :=
  ⟨fun _ _ _ hs => ⟨_, exec_ret_concat hs, rfl, rfl, fun _ => rfl, sameMem_of_eq rfl, ⟨rfl, rfl, rfl⟩, rfl, rfl, rfl⟩,
    fun s hs => exec_ret_empty hs ▸ raise_faultedAs _ _ _ s⟩

/-- Settles O57: the entry RET takes is the return address CALL appended. -/
theorem callThenRetResumesAfterTheCall : Obligations.CallThenRetResumesAfterTheCall := fun a _ hroom =>
  ⟨_, _, exec_call_room hroom a, exec_ret_concat rfl, rfl, rfl, fun _ => rfl, sameMem_of_eq rfl⟩

end Sys2Proof.Machine
end

section
/-! PROOFS. MOD (spec/44_arith_logic.md R152), and the ring of ADD and MULT (R156 (c)). -/

namespace Sys2Proof.Machine

variable {s : State}

theorem exec_mod_of_ne_zero (d : RegIdx) (b : Operand) {c : Operand} (hz : (s.val c).toNat ≠ 0) :
    exec (.mod (.reg d) b c) s =
      commitReg d (zext16 (BitVec.ofNat 15 ((s.val b).toNat % (s.val c).toNat))) 4 s := by
  simp only [exec, execMod, withSlot_reg, aluMod, if_neg hz]

/-- A remainder of values is a value: it is at most the dividend (R152). -/
theorem toNat_ofNat_mod (vb vc : Value) : (BitVec.ofNat 15 (vb.toNat % vc.toNat)).toNat = vb.toNat % vc.toNat := by
  rw [BitVec.toNat_ofNat]
  exact Nat.mod_eq_of_lt (Nat.lt_of_le_of_lt (Nat.mod_le _ _) vb.isLt)

/-- Settles O48: a divisor that is not 0 commits the remainder, which 15 bits hold; 0 raises. -/
theorem modIsTheRemainder : Obligations.ModIsTheRemainder := by
  refine ⟨fun _ _ _ => rfl, fun d b c s hz => ?_, fun d b c s hz => ?_, fun v b c s => ?_⟩
  · have hcommit := commitReg_value d (BitVec.ofNat 15 ((s.val b).toNat % (s.val c).toNat)) 4 s
    rwa [toNat_ofNat_mod, ← exec_mod_of_ne_zero d b hz] at hcommit
  · exact ⟨_, exec_mod_zero d b hz, ⟨rfl, rfl⟩, fun _ => rfl⟩
  · exact faultedAs_of_dest_lit rfl s

/-- The exact sum reduced modulo 32768 is the sum of 15-bit words (R150). -/
theorem aluAdd_eq_add (a b : Value) : aluAdd a b = a + b :=
  BitVec.eq_of_toNat_eq (by rw [toNat_aluAdd, BitVec.toNat_add])

/-- The exact product reduced modulo 32768 is the product of 15-bit words (R151). -/
theorem aluMult_eq_mul (a b : Value) : aluMult a b = a * b :=
  BitVec.eq_of_toNat_eq (by rw [toNat_aluMult, BitVec.toNat_mul])

/-- NOT x + 1 is the negation of x in two's complement (R155). -/
theorem aluAdd_aluNot_one (a : Value) : aluAdd (aluNot a) 1 = -a := by
  rw [aluAdd_eq_add, BitVec.neg_eq_not_add, aluNot]
  rfl

/-- An instruction whose effect is the value `v` leaves `v` itself in its register. -/
theorem reg_eq_of_exec {i : Instr} {t : State} {d : RegIdx} {v : Value} {n : Nat}
    (h : exec i s = withSlot i (.reg d) s fun d => commitReg d (zext16 v) n s) (hnext : exec i s = .next t) :
    t.reg d = v := by
  obtain ⟨t', hnext', hcommit⟩ := value_commits h
  rw [hnext', Host.Outcome.next.injEq] at hnext
  exact hnext ▸ hcommit.reg_eq

/-- Settles O52: the two ALU operations are addition and multiplication of 15-bit words, which form a ring. -/
theorem addAndMultFormARing : Obligations.AddAndMultFormARing := by
  refine ⟨toNat_aluAdd, toNat_aluMult, fun d b c s _ => reg_eq_of_exec (exec_add (.reg d) b c s),
    fun d b c s _ => reg_eq_of_exec (exec_mult (.reg d) b c s), ?_⟩
  simp only [aluAdd_aluNot_one]
  simp only [aluAdd_eq_add, aluMult_eq_mul]
  exact ⟨BitVec.add_comm, BitVec.add_assoc, BitVec.mul_comm, BitVec.mul_assoc, BitVec.add_zero, BitVec.mul_one,
    add_neg_cancel, fun _ _ _ => BitVec.mul_add⟩

end Sys2Proof.Machine
end

section
/-! PROOFS. RMEM and WMEM (spec/45_rmem_wmem.md R160, R161), and the stored word as the next fetched (R63). -/

namespace Sys2Proof.Machine

variable {s : State}

/-- RMEM of a cell that exists commits its word, or is refused where the parameter refuses the word (R160, R7). -/
theorem exec_rmem_read (d : RegIdx) {b : Operand} {w : Word} (hr : s.mem.read (s.val b).toNat = some w) :
    exec (.rmem (.reg d) b) s =
      if refusesLoad s.config w then .refused .rmemHigh else commitReg d w 3 s := by
  simp only [exec, execRmem, withSlot_reg, hr]

/-- Settles O53: the read and the parameter decide between the commit, the refusal and the fault. -/
theorem rmemLoadsTheCell : Obligations.RmemLoadsTheCell := by
  refine ⟨fun d b s w hr hload => ?_, fun d b s w hr hrefuse hgt => ?_, fun d b s hout => ?_, fun v b s => ?_⟩
  · have hok : ¬ refusesLoad s.config w = true := by
      rw [refusesLoad_eq_true]
      rintro ⟨hrefuse, hgt⟩
      obtain htruncate | hle := hload
      · rw [hrefuse] at htruncate
        cases htruncate
      · omega
    rw [exec_rmem_read d hr, if_neg hok]
    exact commitReg_commit d w 3 s
  · rw [exec_rmem_read d hr, if_pos (refusesLoad_eq_true.2 ⟨hrefuse, hgt⟩)]
  · exact ⟨_, exec_rmem_out d hout, ⟨rfl, rfl⟩, fun _ => rfl⟩
  · exact faultedAs_of_dest_lit rfl s

/-- WMEM to a cell that exists stores the widened value there (R161). -/
theorem exec_wmem_write {a : Operand} (b : Operand) (ha : (s.val a).toNat < s.mem.size) :
    ∃ m, s.mem.write (s.val a).toNat (zext16 (s.val b)) = some m ∧
      exec (.wmem a b) s = .next ((s.setMem m).advance 3) := by
  cases hw : s.mem.write (s.val a).toNat (zext16 (s.val b)) with
  | none => exact absurd ((write_none _ _ _).1 hw) (Nat.not_le.2 ha)
  | some m => exact ⟨m, rfl, by simp only [exec, execWmem, hw]⟩

/-- Settles O54: the read after write laws of memory, at the one address WMEM writes and at every other. -/
theorem wmemStoresTheValue : Obligations.WmemStoresTheValue := by
  refine ⟨fun a b s hwf ha => ?_, fun a b s hout => ⟨_, exec_wmem_out b hout, ⟨rfl, rfl⟩, sameMem_of_eq rfl⟩⟩
  obtain ⟨m, hw, hexec⟩ := exec_wmem_write b ha
  exact ⟨_, hexec, ⟨_, read_write_same hwf hw, toNat_zext16 _⟩, fun k hk => read_write_other hwf hw hk,
    (write_some hw).2.1, rfl, fun _ => rfl, rfl, ⟨rfl, rfl, rfl⟩, rfl, rfl, rfl⟩

/-- Settles O32: the window reads the cell WMEM wrote, whatever `pc` is. -/
theorem storedWordIsTheNextFetched : Obligations.StoredWordIsTheNextFetched := by
  intro a b s t p k hwf ha hexec hk hcell
  obtain ⟨m, hw, hnext⟩ := exec_wmem_write b ha
  rw [hnext, Host.Outcome.next.injEq] at hexec
  subst hexec
  refine ⟨zext16 (s.val b), ?_, toNat_zext16 _⟩
  rw [getElem?_fetchWindow hk, setPc_pc, hcell]
  exact read_write_same hwf hw

end Sys2Proof.Machine
end

section
/-! PROOFS. Targets outside memory (spec/43_jumps.md R143 (d)): the transfer commits, and the next fetch faults. -/

namespace Sys2Proof.Machine

variable {s : State}

/-- An instruction that leaves `pc` outside memory and the run as it was is followed by the fault of the next
opcode fetch: no instruction changes `MEM_SIZE` (R143 (d)). -/
theorem commitsThenFaultsAt {i : Instr} {t : State} {target : Nat} (hexec : exec i s = .next t)
    (hrun : s.status = .running) (hsame : SameRun s t) (hpc : t.pc.toNat = target)
    (hsize : s.mem.size ≤ target) : CommitsThenFaultsAt target i s := by
  subst hpc
  obtain ⟨u, hstep, hentry⟩ := step_of_size_le_pc (hsame.1.trans hrun) ((exec_next hexec).mem_size_eq ▸ hsize)
  exact ⟨t, u, hexec, hsame, rfl, hstep, hentry⟩

/-- The jump of an instruction that goes to the value `v` and leaves the run as it was. -/
theorem jump_commitsThenFaultsAt {i : Instr} {v : Value} (hexec : exec i s = .next (s.setPc (zext16 v)))
    (hrun : s.status = .running) (hsize : s.mem.size ≤ v.toNat) : CommitsThenFaultsAt v.toNat i s :=
  commitsThenFaultsAt hexec hrun (onlyPc_setPc s _).run (toNat_pc_setPc_zext16 s v) hsize

/-- Settles O31: the five transfers commit, and the opcode fetch of the next step finds no cell. -/
theorem badTargetFaultsAtTheNextFetch : Obligations.BadTargetFaultsAtTheNextFetch := by
  refine ⟨fun a s hrun hsize => ⟨jump_commitsThenFaultsAt (exec_jmp a s) hrun hsize, fun hroom => ?_⟩,
    fun a b s hrun hsize => ⟨fun ha => ?_, fun ha => ?_⟩, fun s l w hrun hs hsize => ?_,
    fun i s t _ hexec hrun hsize => ?_⟩
  · have hcall := exec_call_room hroom a
    exact ⟨commitsThenFaultsAt hcall hrun ⟨rfl, rfl, rfl⟩ (toNat_zext16 _) hsize, _, hcall, rfl⟩
  · exact jump_commitsThenFaultsAt (exec_jt_taken b ha) hrun hsize
  · exact jump_commitsThenFaultsAt (exec_jf_taken b ha) hrun hsize
  · exact commitsThenFaultsAt (exec_ret_concat hs) hrun ⟨rfl, rfl, rfl⟩ rfl hsize
  · exact step_of_size_le_pc hrun ((exec_next hexec).mem_size_eq ▸ hsize)

end Sys2Proof.Machine
end

section
/-! PROOFS. OUT and IN (spec/47_out_in.md R180, R181), and a holding IN when the host acts (R248). -/

namespace Sys2Proof.Machine

variable {s : State}

theorem exec_out (a : Operand) (s : State) :
    exec (.out a) s = .next ((s.outChar (low8 (s.val a))).advance 2) := rfl

/-- Settles O58: OUT appends the low byte and advances. -/
theorem outEmitsTheLowByte : Obligations.OutEmitsTheLowByte :=
  ⟨fun _ => rfl, fun a s => ⟨_, exec_out a s, ⟨_, rfl, toNat_low8 _⟩, rfl, fun _ => rfl, sameMem_of_eq rfl, rfl, rfl,
    rfl, rfl, rfl, rfl⟩⟩

/-- IN takes the character in front (R181). -/
theorem exec_inp_cons (d : RegIdx) {c : Chr} {cs : List Chr} (hi : s.input = c :: cs) :
    exec (.inp (.reg d)) s = commitReg d (zext16 (zext15 c)) 2 (s.setInput cs) := by
  simp only [exec, execInp, withSlot_reg, inChannel_cons hi]

/-- IN holds where no character is there and the stream is open (R181). -/
theorem exec_inp_hold (d : RegIdx) (hi : s.input = []) (hc : s.inputClosed = false) :
    exec (.inp (.reg d)) s = .next s := by
  simp only [exec, execInp, withSlot_reg, inChannel_nil hi, hc, Bool.false_eq_true, if_false]

/-- Settles O59: the three conditions of the channel are the commit, the hold and the raise. -/
theorem inTakesHoldsOrFaults : Obligations.InTakesHoldsOrFaults := by
  refine ⟨fun d s c cs hi => ?_, fun d s hi hc => exec_inp_hold d hi hc, fun d s hi hc => ?_, fun v s => ?_⟩
  · obtain ⟨t, hnext, hregs, hpc, hmem, hstack, ⟨hout, hin, hclosed⟩, hrun⟩ :=
      commitReg_value d (zext15 c) 2 (s.setInput cs)
    rw [toNat_zext15] at hregs
    exact ⟨t, exec_inp_cons d hi ▸ hnext, hregs, hin, hpc, hmem, hstack, hout, hclosed, hrun⟩
  · exact exec_inp_closed d hi hc ▸ raise_faultedAs _ _ _ s
  · exact ⟨_, exec_of_dest_lit rfl s, ⟨rfl, rfl⟩, rfl⟩

/-- A character the host supplies to an open stream without one is all there is in it (R248). -/
theorem supplyChar_of_empty (hi : s.input = []) (hc : s.inputClosed = false) (c : Chr) :
    s.supplyChar c = s.setInput [c] := by
  simp only [State.supplyChar, hc, Bool.false_eq_true, if_false, hi, List.nil_append]

/-- Settles O60: what the host does leaves `pc` and memory alone, so the same IN is fetched again and finds the
channel in another condition. -/
theorem heldInEndsWhenTheHostActs : Obligations.HeldInEndsWhenTheHostActs := by
  intro s d hrun hfetch hi hc
  refine ⟨(step_of_fetch_ok hrun hfetch).trans (exec_inp_hold d hi hc), fun c => ?_, ?_⟩
  · rw [supplyChar_of_empty hi hc, step_of_fetch_ok (s := s.setInput [c]) hrun ((fetch_congr rfl rfl).trans hfetch),
      exec_inp_cons d rfl]
    refine ⟨_, rfl, ?_, rfl, rfl⟩
    simp
  · rw [step_of_fetch_ok (s := s.closeInput) hrun ((fetch_congr rfl rfl).trans hfetch),
      exec_inp_closed d (s := s.closeInput) hi rfl]
    exact ⟨_, rfl, ⟨rfl, rfl⟩, rfl⟩

end Sys2Proof.Machine
end

section
/-! PROOFS. A register no value operand names has no influence (spec/10_state.md R21, spec/30_encoding.md R84): two
states that differ in one register at most stay so under every operation of an instruction. -/

namespace Sys2Proof.Machine

/-- `s` with another register file. -/
def State.withRegs (s : State) (g : Vector Value 8) : State := { s with regs := g }

/-- `s'` is `s` but, at most, for what the register `r` holds. -/
def AgreeOff (r : RegIdx) (s s' : State) : Prop :=
  ∃ g, s' = s.withRegs g ∧ ∀ q, q ≠ r → s'.reg q = s.reg q

/-- Two outcomes are next states that agree off `r`, or the same refusal. -/
inductive OutAgreeOff (r : RegIdx) : Out → Out → Prop where
  | next {t t' : State} (h : AgreeOff r t t') : OutAgreeOff r (.next t) (.next t')
  | refused (q : Refusal) : OutAgreeOff r (.refused q) (.refused q)

variable {r : RegIdx} {s s' : State}

theorem agreeOff_writeReg (r : RegIdx) (v : Word) (s : State) : AgreeOff r s (s.writeReg r v) :=
  ⟨s.regs.set r (low15 v), rfl, fun q hq => reg_writeReg_other s r q v hq⟩

section Agree
variable (h : AgreeOff r s s')
include h

/-! ### What the states have in common -/

theorem AgreeOff.stack_eq : s'.stack = s.stack := by
  obtain ⟨g, rfl, -⟩ := h
  rfl

theorem AgreeOff.mem_eq : s'.mem = s.mem := by
  obtain ⟨g, rfl, -⟩ := h
  rfl

theorem AgreeOff.config_eq : s'.config = s.config := by
  obtain ⟨g, rfl, -⟩ := h
  rfl

theorem AgreeOff.nextPc_eq (n : Nat) : s'.nextPc n = s.nextPc n := by
  obtain ⟨g, rfl, -⟩ := h
  rfl

theorem AgreeOff.inChannel_eq : s'.inChannel = s.inChannel := by
  obtain ⟨g, rfl, -⟩ := h
  rfl

theorem AgreeOff.stackFull_eq : s'.stackFull = s.stackFull := by
  rw [State.stackFull, State.stackFull, h.config_eq, h.stack_eq]

/-- An operand other than `r` has the same value. -/
theorem AgreeOff.val_eq {o : Operand} (ho : .reg r ≠ o) : s'.val o = s.val o := by
  obtain ⟨-, -, hregs⟩ := h
  cases o with
  | lit v => rfl
  | reg q => exact hregs q fun hq => ho (hq ▸ rfl)

/-! ### Operations -/

/-- An update that neither reads nor writes the register file keeps the agreement. -/
theorem AgreeOff.update (f : State → State)
    (hf : ∀ u g, f (State.withRegs u g) = (f u).withRegs g := by exact fun _ _ => rfl)
    (hregs : ∀ u, (f u).regs = u.regs := by exact fun _ => rfl) : AgreeOff r (f s) (f s') := by
  obtain ⟨g, heq, hagree⟩ := h
  refine ⟨g, by rw [heq, hf], fun q hq => ?_⟩
  rw [reg_eq_of_regs_eq (hregs s'), reg_eq_of_regs_eq (hregs s), hagree q hq]

/-- Writing one register in both states keeps the agreement. -/
theorem AgreeOff.writeReg (d : RegIdx) (v : Word) : AgreeOff r (s.writeReg d v) (s'.writeReg d v) := by
  obtain ⟨g, rfl, hagree⟩ := h
  refine ⟨g.set d (low15 v), rfl, fun q hq => ?_⟩
  by_cases hqd : q = d
  · rw [hqd, reg_writeReg_same, reg_writeReg_same]
  · rw [reg_writeReg_other _ d q v hqd, reg_writeReg_other _ d q v hqd, hagree q hq]

theorem AgreeOff.setPc (target : Word) : OutAgreeOff r (.next (s.setPc target)) (.next (s'.setPc target)) :=
  .next (h.update (·.setPc target))

theorem AgreeOff.advance (n : Nat) : OutAgreeOff r (.next (s.advance n)) (.next (s'.advance n)) :=
  .next (h.update (·.advance n))

theorem AgreeOff.commitReg (d : RegIdx) (v : Word) (n : Nat) :
    OutAgreeOff r (Machine.commitReg d v n s) (Machine.commitReg d v n s') :=
  (h.writeReg d v).advance n

theorem AgreeOff.raise (i : Instr) (kind : FaultKind) (info : Word) :
    OutAgreeOff r (Machine.raise i kind info s) (Machine.raise i kind info s') :=
  .next (h.update (·.takeFault kind (some i.opcode) info))

/-- Stage 4 looks at the operand alone, so what follows it decides. -/
theorem AgreeOff.withSlot (i : Instr) (a : Operand) {rest rest' : RegIdx → Out}
    (hrest : ∀ d, OutAgreeOff r (rest d) (rest' d)) :
    OutAgreeOff r (Machine.withSlot i a s rest) (Machine.withSlot i a s' rest') := by
  cases a with
  | reg d => exact hrest d
  | lit v => exact h.raise i .invalidWriteTarget (zext16 v)

/-- An instruction that writes a value to its dest-reg, the same in both states. -/
theorem AgreeOff.value_commits (i : Instr) (a : Operand) {v v' : Value} (n : Nat) (hv : v' = v) :
    OutAgreeOff r (Machine.withSlot i a s fun d => Machine.commitReg d (zext16 v) n s)
      (Machine.withSlot i a s' fun d => Machine.commitReg d (zext16 v') n s') :=
  h.withSlot i a fun d => hv ▸ h.commitReg d (zext16 v) n

/-! ### Instructions -/

/-- The instructions that write an ALU result of two values. -/
theorem AgreeOff.alu_commits (i : Instr) (a : Operand) (alu : Value → Value → Value) {b c : Operand}
    (hbc : s'.val b = s.val b ∧ s'.val c = s.val c) :
    OutAgreeOff r
      (Machine.withSlot i a s fun d => Machine.commitReg d (zext16 (alu (s.val b) (s.val c))) 4 s)
      (Machine.withSlot i a s' fun d => Machine.commitReg d (zext16 (alu (s'.val b) (s'.val c))) 4 s') :=
  h.value_commits i a 4 (by rw [hbc.1, hbc.2])

theorem AgreeOff.exec_mod (a : Operand) {b c : Operand} (hbc : s'.val b = s.val b ∧ s'.val c = s.val c) :
    OutAgreeOff r (exec (.mod a b c) s) (exec (.mod a b c) s') := by
  refine h.withSlot (.mod a b c) a fun d => ?_
  rw [hbc.1, hbc.2]
  cases aluMod (s.val b) (s.val c) with
  | none => exact h.raise _ _ _
  | some v => exact h.commitReg d (zext16 v) 4

theorem AgreeOff.exec_jt {a b : Operand} (hab : s'.val a = s.val a ∧ s'.val b = s.val b) :
    OutAgreeOff r (exec (.jt a b) s) (exec (.jt a b) s') := by
  simp only [exec, execJt, hab.1, hab.2]
  split
  · exact h.setPc _
  · exact h.advance 3

theorem AgreeOff.exec_jf {a b : Operand} (hab : s'.val a = s.val a ∧ s'.val b = s.val b) :
    OutAgreeOff r (exec (.jf a b) s) (exec (.jf a b) s') := by
  simp only [exec, execJf, hab.1, hab.2]
  split
  · exact h.setPc _
  · exact h.advance 3

theorem AgreeOff.exec_push {a : Operand} (ha : s'.val a = s.val a) :
    OutAgreeOff r (exec (.push a) s) (exec (.push a) s') := by
  simp only [exec, execPush, h.stackFull_eq, ha]
  split
  · exact .refused _
  · exact (h.update (·.push (zext16 (s.val a)))).advance 2

theorem AgreeOff.exec_call {a : Operand} (ha : s'.val a = s.val a) :
    OutAgreeOff r (exec (.call a) s) (exec (.call a) s') := by
  simp only [exec, execCall, h.stackFull_eq, h.nextPc_eq, ha]
  split
  · exact .refused _
  · exact (h.update (·.push (s.nextPc 2))).setPc _

theorem AgreeOff.exec_pop (a : Operand) : OutAgreeOff r (exec (.pop a) s) (exec (.pop a) s') := by
  refine h.withSlot (.pop a) a fun d => ?_
  obtain hs | ⟨l, w, hs⟩ := s.stack.eq_nil_or_concat'
  · rw [pop_none.2 hs, pop_none.2 (h.stack_eq.trans hs)]
    exact h.raise _ _ _
  · rw [pop_concat hs, pop_concat (h.stack_eq.trans hs)]
    exact (h.update (·.setStack l)).commitReg d w 2

theorem AgreeOff.exec_ret : OutAgreeOff r (exec .ret s) (exec .ret s') := by
  obtain hs | ⟨l, w, hs⟩ := s.stack.eq_nil_or_concat'
  · rw [exec_ret_empty hs, exec_ret_empty (h.stack_eq.trans hs)]
    exact h.raise _ _ _
  · rw [exec_ret_concat hs, exec_ret_concat (h.stack_eq.trans hs)]
    exact (h.update (·.setStack l)).setPc w

theorem AgreeOff.exec_rmem (a : Operand) {b : Operand} (hb : s'.val b = s.val b) :
    OutAgreeOff r (exec (.rmem a b) s) (exec (.rmem a b) s') := by
  refine h.withSlot (.rmem a b) a fun d => ?_
  rw [hb, h.mem_eq, h.config_eq]
  cases s.mem.read (s.val b).toNat with
  | none => exact h.raise _ _ _
  | some w =>
    dsimp only
    split
    · exact .refused _
    · exact h.commitReg d w 3

theorem AgreeOff.exec_wmem {a b : Operand} (hab : s'.val a = s.val a ∧ s'.val b = s.val b) :
    OutAgreeOff r (exec (.wmem a b) s) (exec (.wmem a b) s') := by
  simp only [exec, execWmem, hab.1, hab.2, h.mem_eq]
  cases s.mem.write (s.val a).toNat (zext16 (s.val b)) with
  | none => exact h.raise _ _ _
  | some m => exact (h.update (·.setMem m)).advance 3

theorem AgreeOff.exec_inp (a : Operand) : OutAgreeOff r (exec (.inp a) s) (exec (.inp a) s') := by
  refine h.withSlot (.inp a) a fun d => ?_
  rw [h.inChannel_eq]
  cases s.inChannel with
  | available c rest => exact (h.update (·.setInput rest)).commitReg d _ 2
  | noneYet => exact .next h
  | exhausted => exact h.raise _ _ _

/-- States that agree off a register no value operand of the instruction names have outcomes that do. -/
theorem AgreeOff.exec {i : Instr} (hi : .reg r ∉ i.sources) :
    OutAgreeOff r (Machine.exec i s) (Machine.exec i s') := by
  have one {a : Operand} (hsrc : i.sources = [a]) : s'.val a = s.val a :=
    h.val_eq fun heq => hi (by simp [hsrc, heq])
  have two {a b : Operand} (hsrc : i.sources = [a, b]) : s'.val a = s.val a ∧ s'.val b = s.val b :=
    ⟨h.val_eq fun heq => hi (by simp [hsrc, heq]), h.val_eq fun heq => hi (by simp [hsrc, heq])⟩
  cases i with
  | halt => exact (h.update (·.setStatus .halted)).advance 1
  | set a b => exact h.value_commits (.set a b) a 3 (one rfl)
  | push a => exact h.exec_push (one rfl)
  | pop a => exact h.exec_pop a
  | eq a b c => exact h.alu_commits (.eq a b c) a aluEq (two rfl)
  | gt a b c => exact h.alu_commits (.gt a b c) a aluGt (two rfl)
  | jmp a =>
    rw [exec_jmp, exec_jmp, one rfl]
    exact h.setPc (zext16 (s.val a))
  | jt a b => exact h.exec_jt (two rfl)
  | jf a b => exact h.exec_jf (two rfl)
  | add a b c => exact h.alu_commits (.add a b c) a aluAdd (two rfl)
  | mult a b c => exact h.alu_commits (.mult a b c) a aluMult (two rfl)
  | mod a b c => exact h.exec_mod a (two rfl)
  | and a b c => exact h.alu_commits (.and a b c) a aluAnd (two rfl)
  | or a b c => exact h.alu_commits (.or a b c) a aluOr (two rfl)
  | not a b => exact h.value_commits (.not a b) a 3 (congrArg aluNot (one rfl))
  | rmem a b => exact h.exec_rmem a (one rfl)
  | wmem a b => exact h.exec_wmem (two rfl)
  | call a => exact h.exec_call (one rfl)
  | ret => exact h.exec_ret
  | out a =>
    rw [exec_out, exec_out, one rfl]
    exact (h.update (·.outChar (low8 (s.val a)))).advance 2
  | inp a => exact h.exec_inp a
  | noop => exact h.advance 1

end Agree

/-- Settles O26: the state with another content in `r` agrees with it off `r`, and so do the outcomes. -/
theorem unnamedRegisterHasNoInfluence : Obligations.UnnamedRegisterHasNoInfluence := by
  intro i s r v hi
  have hout := (agreeOff_writeReg r v s).exec hi
  refine ⟨fun t ht => ?_, fun q hq => ?_⟩
  · rw [ht] at hout
    generalize exec i (s.writeReg r v) = out at hout ⊢
    cases hout with
    | next h =>
      obtain ⟨g, rfl, hregs⟩ := h
      exact ⟨_, rfl, hregs, rfl, sameMem_of_eq rfl, rfl, ⟨rfl, rfl, rfl⟩, rfl, rfl, rfl⟩
  · rw [hq] at hout
    generalize exec i (s.writeReg r v) = out at hout ⊢
    cases hout
    rfl

end Sys2Proof.Machine
end
